-- ==== Sys2Proof/Word.lean ====
section
/-! DEFINITION. The word types of CFC: a byte of a buffer, a 16-bit quantity (the CRC register, the length field, a tag)
and a 32-bit register or command word. -/

namespace Sys2Proof

/-- One byte of a buffer or of a frame. -/
abbrev Byte := BitVec 8

/-- A 16-bit quantity: the CRC register (R111), FLEN.LEN (R15), a TV tag (R72). -/
abbrev Half := BitVec 16

/-- A 32-bit register or command word (R11, R52). -/
abbrev Word := BitVec 32

end Sys2Proof
end

