-- ==== Sys2Proof/Syntax.lean ====
section
/-! DEFINITION. The commands of CFC: one constructor for each row of spec/opcode_table.json (R53). CFC has no instruction set of
its own (R1); a command is what the host writes to CMD, and it stands here for the instruction. -/

namespace Sys2Proof

/-- The commands, one constructor per row of the opcode table. The only operand inside a command word beside the kind, which
the mnemonic fixes, is the null flag N of TVPTXT (R52, R54). -/
inductive Instr where
  /-- SER.CMD (R92) -/
  | serCmd
  /-- SER.DSC (R93) -/
  | serDsc
  /-- SER.TEL (R94) -/
  | serTel
  /-- SER.SET (R95) -/
  | serSet
  /-- SER.TV (R96) -/
  | serTv
  /-- DES.CMD (R98) -/
  | desCmd
  /-- DES.DSC (R99) -/
  | desDsc
  /-- DES.TEL (R100) -/
  | desTel
  /-- DES.SET (R101) -/
  | desSet
  /-- DES.TV (R102) -/
  | desTv
  /-- CRC (R112) -/
  | crc
  /-- TVCLR (R80) -/
  | tvclr
  /-- TVPI32 (R81) -/
  | tvpi32
  /-- TVPU16 (R82) -/
  | tvpu16
  /-- TVPF32 (R83) -/
  | tvpf32
  /-- TVPTXT (R84); `n` is the null-text flag, word bit 11. -/
  | tvptxt (n : Bool)
  /-- TVGTAG (R85) -/
  | tvgtag
  /-- TVUI32 (R86) -/
  | tvui32
  /-- TVUU16 (R87) -/
  | tvuu16
  /-- TVUF32 (R88) -/
  | tvuf32
  /-- TVUTXT (R89) -/
  | tvutxt
  deriving DecidableEq, Repr

end Sys2Proof
end

