-- ==== Sys2Proof/Decode.lean ====
section
/-! DEFINITION. The command word (R52 to R56): its fields, the decoder of R55, and the encoder, each written from the opcode
map of R53. -/

namespace Sys2Proof

/-- OP, bits 7:0 (R52). -/
def opField (w : Word) : BitVec 8 := w.extractLsb' 0 8

/-- KIND, bits 10:8 (R52). -/
def kindField (w : Word) : BitVec 3 := w.extractLsb' 8 3

/-- N, bit 11 (R52). -/
def nullField (w : Word) : Bool := w.getLsbD 11

/-- The reserved bits 31:12, which must be 0 (R52). -/
def reservedField (w : Word) : BitVec 20 := w.extractLsb' 12 20

/-- The five message kinds of R61, in the spec's order. Codes 5 to 7 name no kind. -/
inductive Kind where
  | command
  | discovery
  | telemetry
  | settings
  | taggedValue
  deriving DecidableEq, Repr

/-- Why a word is no command. The spec makes no difference between these: each completes with IllegalCommand (R55). -/
inductive DecodeError where
  /-- a bit of 31:12 is set -/
  | reservedBits
  /-- OP is not in the map of R53 -/
  | illegalOpcode
  /-- KIND 5, 6 or 7 on SER or DES -/
  | illegalKind
  /-- KIND set on an opcode that takes none -/
  | misplacedKind
  /-- N set on an opcode other than TVPTXT -/
  | misplacedNull
  deriving DecidableEq, Repr

/-- The 3-bit kind code (R61). -/
def Kind.code : Kind → BitVec 3
  | .command => 0
  | .discovery => 1
  | .telemetry => 2
  | .settings => 3
  | .taggedValue => 4

/-- The kind a 3-bit code names; 5, 6 and 7 name none (R61). -/
def kindOfCode (k : BitVec 3) : Option Kind :=
  if k = 0 then some .command
  else if k = 1 then some .discovery
  else if k = 2 then some .telemetry
  else if k = 3 then some .settings
  else if k = 4 then some .taggedValue
  else none

/-- The SER command of a kind (R53). -/
def serInstr : Kind → Instr
  | .command => .serCmd
  | .discovery => .serDsc
  | .telemetry => .serTel
  | .settings => .serSet
  | .taggedValue => .serTv

/-- The DES command of a kind (R53). -/
def desInstr : Kind → Instr
  | .command => .desCmd
  | .discovery => .desDsc
  | .telemetry => .desTel
  | .settings => .desSet
  | .taggedValue => .desTv

/-- The opcodes that take neither KIND nor N (R53, R55). -/
def plainInstr (op : BitVec 8) : Option Instr :=
  if op = 0x03 then some .crc
  else if op = 0x10 then some .tvclr
  else if op = 0x11 then some .tvpi32
  else if op = 0x12 then some .tvpu16
  else if op = 0x13 then some .tvpf32
  else if op = 0x18 then some .tvgtag
  else if op = 0x19 then some .tvui32
  else if op = 0x1A then some .tvuu16
  else if op = 0x1B then some .tvuf32
  else if op = 0x1C then some .tvutxt
  else none

/-- Decode of R55, total on every 32-bit word, its checks in the rule's order. -/
def decodeWord (w : Word) : Except DecodeError Instr :=
  let op := opField w
  let kind := kindField w
  let n := nullField w
  if reservedField w ≠ 0 then .error .reservedBits
  else if op = 0x01 ∨ op = 0x02 then
    match kindOfCode kind with
    | none => .error .illegalKind
    | some k =>
      if n then .error .misplacedNull
      else if op = 0x01 then .ok (serInstr k) else .ok (desInstr k)
  else if op = 0x14 then
    if kind ≠ 0 then .error .misplacedKind else .ok (.tvptxt n)
  else
    match plainInstr op with
    | none => .error .illegalOpcode
    | some i =>
      if kind ≠ 0 then .error .misplacedKind
      else if n then .error .misplacedNull
      else .ok i

/-- A command word from its fields, reserved bits 0 (R52). -/
def commandWord (op : BitVec 8) (kind : BitVec 3) (n : Bool) : Word :=
  op.zeroExtend 32 ||| (kind.zeroExtend 32 <<< 8) ||| ((BitVec.ofBool n).zeroExtend 32 <<< 11)

/-- The word of a command, from the opcode map of R53. -/
def encode : Instr → Word
  | .serCmd => commandWord 0x01 (Kind.code .command) false
  | .serDsc => commandWord 0x01 (Kind.code .discovery) false
  | .serTel => commandWord 0x01 (Kind.code .telemetry) false
  | .serSet => commandWord 0x01 (Kind.code .settings) false
  | .serTv => commandWord 0x01 (Kind.code .taggedValue) false
  | .desCmd => commandWord 0x02 (Kind.code .command) false
  | .desDsc => commandWord 0x02 (Kind.code .discovery) false
  | .desTel => commandWord 0x02 (Kind.code .telemetry) false
  | .desSet => commandWord 0x02 (Kind.code .settings) false
  | .desTv => commandWord 0x02 (Kind.code .taggedValue) false
  | .crc => commandWord 0x03 0 false
  | .tvclr => commandWord 0x10 0 false
  | .tvpi32 => commandWord 0x11 0 false
  | .tvpu16 => commandWord 0x12 0 false
  | .tvpf32 => commandWord 0x13 0 false
  | .tvptxt n => commandWord 0x14 0 n
  | .tvgtag => commandWord 0x18 0 false
  | .tvui32 => commandWord 0x19 0 false
  | .tvuu16 => commandWord 0x1A 0 false
  | .tvuf32 => commandWord 0x1B 0 false
  | .tvutxt => commandWord 0x1C 0 false

/-- The instruction read from a table word: a command is one 32-bit word written by one bus access (R52), so the laid-out word
is `w` itself with every bit from `nbits` on taken as 0; a number that does not fit 32 bits is no command word. -/
def decodeTableWord (nbits w : Nat) : Option Instr :=
  let v := w % 2 ^ nbits
  if v < 2 ^ 32 then
    match decodeWord (BitVec.ofNat 32 v) with
    | .ok i => some i
    | .error _ => none
  else none

end Sys2Proof
end

