-- ==== Sys2Proof/Config.lean ====
section
/-! DEFINITION. What is fixed when a CFC is built (R6), and the two values the spec leaves free: the byte an unwritten buffer
byte reads as (R28) and the value of a host read that faults (R123). -/

namespace Sys2Proof

/-- The build parameters of R6. They are plain numbers, so that a set of parameters outside the legal ranges can be written
down and refused (R7, 93 U9): `Config.wf` is the check. A machine carries its configuration in its state and no step changes
it, so a claim about every state is a claim about every build (the spec: "A model takes each one as an argument"). -/
structure Config where
  /-- `SYNC_PATTERN`, the low 5 bits of every valid header; legal 0x00-0x1F. -/
  syncPattern    : Nat
  /-- `MAX_PAYLOAD_SIZE`, the largest payload in bytes; legal 0-255. -/
  maxPayloadSize : Nat
  /-- `MAX_MODULES`, the capacity of the Discovery record's array; legal 1-255. -/
  maxModules     : Nat
  /-- `LOG_ENABLE`, whether notifications are emitted. -/
  logEnable      : Bool
  /-- `BASE`, the host address of the 4 KiB region; legal when a multiple of 4096. -/
  base           : Nat
  deriving DecidableEq, Repr

/-- The parameters the spec's own vectors assume (R6, 95: sync 0x02, payload 64, modules 4, log 1), placed at host address 0.
DESIGN CHOICE (log 1): the spec leaves all five OPEN; only `State.reset` uses this value. -/
def Config.vectors : Config :=
  { syncPattern := 0x02, maxPayloadSize := 64, maxModules := 4, logEnable := true, base := 0 }

/-- FREE VALUE (R28, 93 U1; log 2): `Config.freeByte t o` is what draw number `t` gives for the buffer byte at offset `o` when no
write has reached that byte since the last reset. It has no body, so nothing can be proved of its value, zero least of all. -/
opaque Config.freeByte : Nat → Nat → Byte

/-- FREE VALUE (R123, 93 U3; log 3): `Config.freeWord t` is what draw number `t` gives for a host read that raised a host
fault. -/
opaque Config.freeWord : Nat → Word

end Sys2Proof
end

