-- ==== Sys2Proof/Machine/State.lean ====
section
/-! DEFINITION. The state of CFC (R11) as plain data, with the host's side of the port beside it: the accesses the host has
still to make, whose turn it is, and what its reads returned. -/

namespace Sys2Proof.Machine

/-- The byte buffers of R23 to R25. -/
inductive Buffer where
  | tstage
  | fbuf
  | rbuf
  deriving DecidableEq, Repr

/-- The registers of the map of R35. -/
inductive Reg where
  | cmd
  | status
  | err
  | flen
  | arg0
  | arg1
  | result
  | crcr
  | param
  deriving DecidableEq, Repr

/-- The error codes 1 to 9 of R115, by name. -/
inductive ErrCode where
  | oversizedPayload
  | bufferTooShort
  | invalidHeader
  | kindMismatch
  | lengthInconsistent
  | payloadSizeMismatch
  | integrityCheckFailed
  | rangeInvalid
  | illegalCommand
  deriving DecidableEq, Repr

/-- How a command completes (R114): `Ok(truncated)` or `Err(code)`. -/
inductive CmdOutcome where
  | ok (truncated : Bool)
  | err (code : ErrCode)
  deriving DecidableEq, Repr

/-- The severity of a notification (R121). -/
inductive Severity where
  | error
  | warning
  deriving DecidableEq, Repr

/-- One notification `(severity, reason)` of the notification output (R33, R121). -/
structure Note where
  severity : Severity
  reason   : Byte
  deriving DecidableEq, Repr

/-- The width of a host access: 1, 2 or 4 bytes (R39). -/
inductive Width where
  | w8
  | w16
  | w32
  deriving DecidableEq, Repr

/-- Why a host access broke the access rules (R123). These are records of the model, not reasons to stop. -/
inductive HostFaultReason where
  /-- wrong width or alignment for the offset, or a buffer access spilling past the buffer (R38, R39) -/
  | badAccess
  /-- an access touching an unmapped offset (R40) -/
  | unmapped
  /-- an access while a command is pending, other than a 4-byte read of STATUS or PARAM (R137) -/
  | hazard
  deriving DecidableEq, Repr

/-- The record `(reason, offset, width, is_write)` of R123. -/
structure HostFaultRecord where
  reason  : HostFaultReason
  offset  : Nat
  width   : Width
  isWrite : Bool
  deriving DecidableEq, Repr

/-- What the host asks of its port (R10, R57): `MemRead`, `MemWrite` at a host address, and the loop POLL. Of a narrow write's
value the low bytes are used. -/
inductive HostOp where
  | read (addr : Nat) (width : Width)
  | write (addr : Nat) (width : Width) (value : Word)
  | poll
  deriving DecidableEq, Repr

/-- Whose step comes next (R10, R46): a host access, the engine's completion step, or the platform asserting reset (R132). -/
inductive Turn where
  | host
  | engine
  | reset
  deriving DecidableEq, Repr

/-- What one host read returned. MODEL'S OWN (log 6): the value goes to the host, which the spec leaves outside CFC. -/
structure ReadRecord where
  offset : Nat
  width  : Width
  value  : Word
  deriving DecidableEq, Repr

/-- The buffer bytes some write has reached since the last reset, by offset in the region, offsets strictly rising. An offset
that is not listed has no defined value (R28): reading it is a free draw, so no entry is ever redundant. -/
abbrev Memory := List Host.Cell

/-- The state of CFC and of the model around it. -/
@[ext]
structure State where
  /-- the build parameters (R6); no step changes them -/
  cfg : Config
  /-- CMD (R12): the last command word the host wrote -/
  cmd : Word
  /-- STATUS.TRUNC (R13); STATUS.BUSY is a view of `pending` -/
  trunc : Bool
  /-- ERR.CODE (R14) -/
  errCode : Byte
  /-- FLEN.LEN (R15) -/
  flen : Half
  /-- ARG0 (R16) -/
  arg0 : Word
  /-- ARG1 (R16) -/
  arg1 : Word
  /-- RESULT (R17) -/
  result : Word
  /-- CRCR.CRC (R18) -/
  crcr : Half
  /-- TSTAGE, FBUF and RBUF (R23 to R25): the bytes written since reset -/
  mem : Memory
  /-- PENDING (R29) -/
  pending : Option Word
  /-- NOTES (R33), oldest first -/
  notes : List Note
  /-- HFAULT (R34): a set, held as a list with no repeats -/
  hfault : List HostFaultRecord
  /-- the host's accesses still to be made, in program order (R46); MODEL'S OWN (log 5) -/
  hostQueue : List HostOp
  /-- the schedule: whose turn each coming step is (R32, 93 U6); MODEL'S OWN (log 4) -/
  turns : List Turn
  /-- what the host's reads returned, oldest first; MODEL'S OWN (log 6) -/
  readLog : List ReadRecord
  /-- the number of the next free draw (R28); MODEL'S OWN (log 2) -/
  draws : Nat
  deriving DecidableEq, Repr

/-- Why the machine stops. CFC itself has no trap (R114); host faults are recorded in HFAULT and the machine goes on. -/
inductive Fault where
  /-- Raised by a host access whose address is not in CFC's region (R35): it never reaches CFC and the spec gives it no
  meaning here. Safe: the model stops where the host's other memory would answer. -/
  | outsideRegion
  deriving DecidableEq, Repr

/-- Why the machine has no next state to give. -/
inductive Refusal where
  /-- Raised by `exec` for a command that has no meaning yet. Safe. -/
  | notModelled (mnemonic : String)
  /-- Raised by `step` in a state whose build parameters are outside the legal ranges: "it is not a CFC" (R7, 93 U9). Safe. -/
  | illegalConfiguration
  deriving DecidableEq, Repr

/-- The machine of a build right after power-on reset (R133): registers 0, nothing pending, no buffer byte written, NOTES and
HFAULT empty; the host has asked for nothing. -/
def State.resetOf (c : Config) : State where
  cfg := c
  cmd := 0
  trunc := false
  errCode := 0
  flen := 0
  arg0 := 0
  arg1 := 0
  result := 0
  crcr := 0
  mem := []
  pending := none
  notes := []
  hfault := []
  hostQueue := []
  turns := []
  readLog := []
  draws := 0

/-- The machine right after reset, in the build the spec's vectors assume (log 1). -/
def State.reset : State := State.resetOf Config.vectors

end Sys2Proof.Machine
end

