-- ==== Sys2Proof/Machine/Flags.lean ====
section
/-! DEFINITION. The status outputs of CFC, which has no condition codes (R22): the error numbers, the words the host reads from
STATUS, ERR, FLEN, CRCR and PARAM, and the part of ReportOutcome that writes ERR.CODE and STATUS.TRUNC (R117). -/

namespace Sys2Proof.Machine

/-- The ERR.CODE numbers of R115. -/
def ErrCode.code : ErrCode → Byte
  | .oversizedPayload => 1
  | .bufferTooShort => 2
  | .invalidHeader => 3
  | .kindMismatch => 4
  | .lengthInconsistent => 5
  | .payloadSizeMismatch => 6
  | .integrityCheckFailed => 7
  | .rangeInvalid => 8
  | .illegalCommand => 9

/-- The reason of the one warning, TextTruncated (R121). -/
def textTruncatedReason : Byte := 0x10

/-- STATUS (R13): bit 0 BUSY, bit 1 TRUNC, the rest 0. -/
def State.statusWord (s : State) : Word :=
  (BitVec.ofBool s.pending.isSome).zeroExtend 32 ||| ((BitVec.ofBool s.trunc).zeroExtend 32 <<< 1)

/-- ERR (R14): bits 7:0 CODE, the rest 0. -/
def State.errWord (s : State) : Word := s.errCode.zeroExtend 32

/-- FLEN (R15): bits 15:0 LEN, the rest 0. -/
def State.flenWord (s : State) : Word := s.flen.zeroExtend 32

/-- CRCR (R18): bits 15:0 CRC, the rest 0. -/
def State.crcrWord (s : State) : Word := s.crcr.zeroExtend 32

/-- PARAM (R19): SYNC 4:0, MAXPAY 15:8, MAXMOD 23:16, LOGEN 24, the rest 0. -/
def paramWord (c : Config) : Word :=
  (BitVec.ofNat 5 c.syncPattern).zeroExtend 32 ||| ((BitVec.ofNat 8 c.maxPayloadSize).zeroExtend 32 <<< 8) |||
    ((BitVec.ofNat 8 c.maxModules).zeroExtend 32 <<< 16) ||| ((BitVec.ofBool c.logEnable).zeroExtend 32 <<< 24)

/-- ERR.CODE and STATUS.TRUNC after a completion (R117). Neither is sticky. -/
def State.setOutcome (s : State) : CmdOutcome → State
  | .ok t => { s with errCode := 0, trunc := t }
  | .err c => { s with errCode := c.code, trunc := false }

end Sys2Proof.Machine
end

