-- ==== Sys2Proof/Machine/Ops.lean ====
section
/-! DEFINITION. The named operations over the buffers and the registers: the one place where memory is read and written, the
free draw of an unwritten byte (R28), the notification output (R121), the host-fault record (R123), and the completion of a
command (R31, R117), which is this hardware's one way of reporting a failure. -/

namespace Sys2Proof.Machine

/-- A legal memory lists its offsets strictly rising. -/
abbrev Memory.wf (m : Memory) : Prop := (m.map Prod.fst).Pairwise (· < ·)

/-- The byte at offset `o`, if a write has reached it since reset. -/
def Memory.byteAt : Memory → Nat → Option Byte
  | [], _ => none
  | (a, b) :: m, o => if a = o then some b else Memory.byteAt m o

/-- Store one byte, keeping the offsets strictly rising. -/
def Memory.set : Memory → Nat → Byte → Memory
  | [], o, v => [(o, v)]
  | (a, b) :: m, o, v =>
    if o < a then (o, v) :: (a, b) :: m
    else if o = a then (o, v) :: m
    else (a, b) :: Memory.set m o v

/-- Store bytes at consecutive offsets from `o`, first byte first. -/
def Memory.setRange : Memory → Nat → List Byte → Memory
  | m, _, [] => m
  | m, o, b :: bs => Memory.setRange (Memory.set m o b) (o + 1) bs

/-- Where a buffer's byte 0 sits in the region (R35). -/
def Buffer.window : Buffer → Nat
  | .tstage => 0x100
  | .fbuf => 0x200
  | .rbuf => 0x400

/-- Byte `i` of buffer `b`, as draw number `t` would read it: the byte written there, or a free byte (R28). -/
def State.readByte (s : State) (t : Nat) (b : Buffer) (i : Nat) : Byte :=
  match s.mem.byteAt (b.window + i) with
  | some v => v
  | none => Config.freeByte t (b.window + i)

/-- The `n` bytes of buffer `b` from byte `i` on, read once each under draw number `t`. -/
def State.readBytes (s : State) (t : Nat) (b : Buffer) (i n : Nat) : List Byte :=
  (List.range n).map fun j => s.readByte t b (i + j)

/-- `rd16le` of the spec's conventions (00, section 4). -/
def State.rd16le (s : State) (t : Nat) (b : Buffer) (i : Nat) : Half :=
  (s.readByte t b i).zeroExtend 16 ||| ((s.readByte t b (i + 1)).zeroExtend 16 <<< 8)

/-- `rd32le` of the spec's conventions (00, section 4). -/
def State.rd32le (s : State) (t : Nat) (b : Buffer) (i : Nat) : Word :=
  (s.readByte t b i).zeroExtend 32 ||| ((s.readByte t b (i + 1)).zeroExtend 32 <<< 8) |||
    ((s.readByte t b (i + 2)).zeroExtend 32 <<< 16) ||| ((s.readByte t b (i + 3)).zeroExtend 32 <<< 24)

/-- Pass on by `k` draw numbers, so that no later read shares a draw with an earlier one (R28). -/
def State.useDraws (s : State) (k : Nat) : State := { s with draws := s.draws + k }

/-- `B[i+k] <- v[k]` for each byte of `v`. -/
def State.writeBytes (s : State) (b : Buffer) (i : Nat) (v : List Byte) : State :=
  { s with mem := s.mem.setRange (b.window + i) v }

/-- `notify(sev, reason)`: append to NOTES when `LOG_ENABLE = 1`, else nothing (R121, R122). -/
def State.notify (s : State) (sev : Severity) (reason : Byte) : State :=
  if s.cfg.logEnable then { s with notes := s.notes ++ [{ severity := sev, reason := reason }] } else s

/-- `ReportOutcome` (R117). -/
def State.report (s : State) : CmdOutcome → State
  | .ok t => s.setOutcome (.ok t)
  | .err c => (s.setOutcome (.err c)).notify .error c.code

/-- The end of the completion step (R31): report the outcome of the command's rule, then `PENDING <- none`. -/
def State.complete (r : CmdOutcome × State) : State :=
  { r.2.report r.1 with pending := none }

/-- A command's meaning from its rule: the rule's outcome and the state it left, completed. A command always goes on. -/
def State.finish (r : CmdOutcome × State) : Host.Outcome State Fault Refusal :=
  .next (State.complete r)

/-- `raise HostFault(reason)`: add the record to HFAULT, a set (R34, R123). -/
def State.raiseHostFault (s : State) (r : HostFaultReason) (o : Nat) (w : Width) (isWrite : Bool) : State :=
  if ({ reason := r, offset := o, width := w, isWrite := isWrite } : HostFaultRecord) ∈ s.hfault then s
  else { s with hfault := s.hfault ++ [{ reason := r, offset := o, width := w, isWrite := isWrite }] }

/-- Reset asserted (R133): every register to its reset value, PENDING none, every buffer byte unwritten; the build parameters,
NOTES and HFAULT are kept, and so is the model's own record of the host and of the draws used. -/
def State.assertReset (s : State) : State :=
  { State.resetOf s.cfg with
    notes := s.notes, hfault := s.hfault
    hostQueue := s.hostQueue, turns := s.turns, readLog := s.readLog, draws := s.draws }

end Sys2Proof.Machine
end

