-- ==== Sys2Proof/Machine/Operands.lean ====
section
/-! DEFINITION. The operands of the commands: sizes derived from the build parameters (R8, R64), the little-endian byte
sequences (R60), the frame header (R62), and the TV cell (R26, R71 to R73). -/

namespace Sys2Proof.Machine

/-- `SIZE(K)` (R64). -/
def kindSize (c : Config) : Kind → Nat
  | .command => 26
  | .discovery => 1 + 7 * c.maxModules
  | .telemetry => 24
  | .settings => 20
  | .taggedValue => 18

/-- `FBUF_SIZE = 2 + MAX_PAYLOAD_SIZE + 2` (R8). -/
def fbufSize (c : Config) : Nat := 2 + c.maxPayloadSize + 2

/-- `RBUF_SIZE = max(26, 24, 20, 18, 1 + 7*MAX_MODULES)` (R8). -/
def rbufSize (c : Config) : Nat := max 26 (max 24 (max 20 (max 18 (1 + 7 * c.maxModules))))

/-- The number of bytes of a buffer (R23 to R25). -/
def Buffer.size (c : Config) : Buffer → Nat
  | .tstage => 16
  | .fbuf => fbufSize c
  | .rbuf => rbufSize c

/-- `le16(v)`: least significant byte first (00, section 4; R60). -/
def le16 (v : Half) : List Byte := [v.extractLsb' 0 8, v.extractLsb' 8 8]

/-- `le32(v)`: least significant byte first (00, section 4; R60). -/
def le32 (v : Word) : List Byte :=
  [v.extractLsb' 0 8, v.extractLsb' 8 8, v.extractLsb' 16 8, v.extractLsb' 24 8]

/-- `encodeHeader(k)`: the kind in bits 7:5, the sync pattern in bits 4:0 (R62; 90 C1). -/
def encodeHeader (c : Config) (k : BitVec 3) : Byte :=
  (k.zeroExtend 8 <<< 5) ||| BitVec.ofNat 8 c.syncPattern

/-- `decodeType(h) = h[7:5]` (R62). -/
def decodeType (h : Byte) : BitVec 3 := h.extractLsb' 5 3

/-- `isValidHeader(h)`: the low 5 bits are the sync pattern (R62). -/
def isValidHeader (c : Config) (h : Byte) : Bool := decide ((h &&& 0x1F).toNat = c.syncPattern)

/-- The tag codes of R72. -/
def tagEmpty : Half := 0
def tagInt32 : Half := 1
def tagUInt16 : Half := 2
def tagFloat32 : Half := 3
def tagText : Half := 4

/-- The 18 bytes of a TV cell: the content, zeros up to 16 storage bytes, then the tag (R71, R73). -/
def tvCell (content : List Byte) (tag : Half) : List Byte :=
  content ++ List.replicate (16 - content.length) 0 ++ le16 tag

/-- Write the TV cell, RBUF[0..18) (R26). -/
def State.writeCell (s : State) (content : List Byte) (tag : Half) : State :=
  s.writeBytes .rbuf 0 (tvCell content tag)

/-- `TV.tag`, RBUF[16..18) (R26). -/
def State.tvTag (s : State) (t : Nat) : Half := s.rd16le t .rbuf 16

end Sys2Proof.Machine
end

