-- ==== Sys2Proof/Machine/Crc.lean ====
section
/-! DEFINITION. The CRC-16 generator (R109 to R111) and the CRC command (R112). -/

namespace Sys2Proof.Machine

/-- One of the 8 iterations of R109: shift left, and XOR with 0x1021 if the high bit was set. The register has 16 bits and
every intermediate value is truncated to them (R111). -/
def crcShift (crc : Half) : Half :=
  if crc.getLsbD 15 then (crc <<< 1) ^^^ 0x1021 else crc <<< 1

/-- One byte of the message (R109): XOR it into the high byte, then shift 8 times. -/
def crcByte (crc : Half) (m : Byte) : Half :=
  Nat.repeat crcShift 8 (crc ^^^ (m.zeroExtend 16 <<< 8))

/-- `crc16(M)` (R109): initial value 0xFFFF, no final XOR, no reflection (R110). -/
def crc16 (msg : List Byte) : Half := msg.foldl crcByte 0xFFFF

/-- The rule of R112: `start` and `cnt` are unbounded integers, so the range check never wraps. -/
def State.crcCommand (s : State) : CmdOutcome × State :=
  let start := s.arg0.toNat
  let cnt := s.arg1.toNat
  if fbufSize s.cfg < start + cnt then (.err .rangeInvalid, s)
  else (.ok false, { s.useDraws 1 with crcr := crc16 (s.readBytes s.draws .fbuf start cnt) })

/-- CRC (R112). -/
def execCrc (s : State) : Host.Outcome State Fault Refusal := State.finish s.crcCommand

end Sys2Proof.Machine
end

