-- ==== Sys2Proof/Machine/Frame.lean ====
section
/-! DEFINITION. Frame serialization and deserialization (R91 to R102). -/

namespace Sys2Proof.Machine

/-- `ZeroUnusedSlots(P)` (R93): P[0] is the module count; the bytes of every slot at or beyond it become 0. -/
def zeroUnusedSlots (p : List Byte) : List Byte :=
  let used := 1 + 7 * (p.headD 0).toNat
  p.take used ++ List.replicate (p.length - used) 0

/-- The payload SER sends for a record image: as it stands, but for Discovery's unused slots (R91, R93). -/
def framePayload (k : Kind) (p : List Byte) : List Byte :=
  match k with
  | .discovery => zeroUnusedSlots p
  | _ => p

/-- Header, length and payload of a frame (R58, R62, R63), over which its CRC runs. -/
def frameBody (c : Config) (k : Kind) (payload : List Byte) : List Byte :=
  encodeHeader c k.code :: BitVec.ofNat 8 payload.length :: payload

/-- The whole frame: the body and its CRC, little-endian (R58). -/
def frameBytes (c : Config) (k : Kind) (payload : List Byte) : List Byte :=
  frameBody c k payload ++ le16 (crc16 (frameBody c k payload))

/-- `SER(K)` (R91). -/
def State.ser (k : Kind) (s : State) : CmdOutcome × State :=
  let n := kindSize s.cfg k
  if s.cfg.maxPayloadSize < n then (.err .oversizedPayload, { s with flen := 0 })
  else
    let p := framePayload k (s.readBytes s.draws .rbuf 0 n)
    (.ok false, { (s.useDraws 1).writeBytes .fbuf 0 (frameBytes s.cfg k p) with flen := BitVec.ofNat 16 (4 + n) })

/-- `DES(K)` (R97), its checks in the rule's order. The reads of FBUF are the rule's own: the header, the length byte, the
bytes under the CRC, the trailer, and last the payload. -/
def State.des (k : Kind) (s : State) : CmdOutcome × State :=
  let len := s.flen.toNat
  let t := s.draws
  let h := s.readByte t .fbuf 0
  let l := (s.readByte (t + 1) .fbuf 1).toNat
  let s' := s.useDraws 5
  if fbufSize s.cfg < len then (.err .rangeInvalid, s)
  else if len < 4 then (.err .bufferTooShort, s)
  else if isValidHeader s.cfg h = false then (.err .invalidHeader, s')
  else if decodeType h ≠ k.code then (.err .kindMismatch, s')
  else if len ≠ 2 + l + 2 then (.err .lengthInconsistent, s')
  else if l ≠ kindSize s.cfg k then (.err .payloadSizeMismatch, s')
  else if crc16 (s.readBytes (t + 2) .fbuf 0 (2 + l)) ≠ s.rd16le (t + 3) .fbuf (2 + l) then
    (.err .integrityCheckFailed, s')
  else (.ok false, s'.writeBytes .rbuf 0 (s.readBytes (t + 4) .fbuf 2 l))

/-- SER.CMD (R92). -/
def execSerCmd (s : State) : Host.Outcome State Fault Refusal := State.finish (s.ser .command)

/-- SER.DSC (R93). -/
def execSerDsc (s : State) : Host.Outcome State Fault Refusal := State.finish (s.ser .discovery)

/-- SER.TEL (R94). -/
def execSerTel (s : State) : Host.Outcome State Fault Refusal := State.finish (s.ser .telemetry)

/-- SER.SET (R95). -/
def execSerSet (s : State) : Host.Outcome State Fault Refusal := State.finish (s.ser .settings)

/-- SER.TV (R96). -/
def execSerTv (s : State) : Host.Outcome State Fault Refusal := State.finish (s.ser .taggedValue)

/-- DES.CMD (R98). -/
def execDesCmd (s : State) : Host.Outcome State Fault Refusal := State.finish (s.des .command)

/-- DES.DSC (R99). -/
def execDesDsc (s : State) : Host.Outcome State Fault Refusal := State.finish (s.des .discovery)

/-- DES.TEL (R100). -/
def execDesTel (s : State) : Host.Outcome State Fault Refusal := State.finish (s.des .telemetry)

/-- DES.SET (R101). -/
def execDesSet (s : State) : Host.Outcome State Fault Refusal := State.finish (s.des .settings)

/-- DES.TV (R102). -/
def execDesTv (s : State) : Host.Outcome State Fault Refusal := State.finish (s.des .taggedValue)

end Sys2Proof.Machine
end

