-- ==== Sys2Proof/Machine/TaggedValue.lean ====
section
/-! DEFINITION. The ten commands on the TV cell (R77 to R89). None of them fails (R77). -/

namespace Sys2Proof.Machine

/-- Pack `content` under `tag`: all 16 storage bytes zeroed first (R73), no error, no truncation. -/
def State.pack (s : State) (content : List Byte) (tag : Half) : CmdOutcome × State :=
  (.ok false, s.writeCell content tag)

/-- Return `v` in RESULT after `k` draws. -/
def State.answer (s : State) (k : Nat) (v : Word) : CmdOutcome × State :=
  (.ok false, { s.useDraws k with result := v })

/-- TVCLR (R80): storage zero, tag Empty. -/
def execTvclr (s : State) : Host.Outcome State Fault Refusal :=
  State.finish (s.pack [] tagEmpty)

/-- TVPI32 (R81). -/
def execTvpi32 (s : State) : Host.Outcome State Fault Refusal :=
  State.finish (s.pack (le32 s.arg0) tagInt32)

/-- TVPU16 (R82): ARG0[31:16] is ignored. -/
def execTvpu16 (s : State) : Host.Outcome State Fault Refusal :=
  State.finish (s.pack (le16 (s.arg0.extractLsb' 0 16)) tagUInt16)

/-- TVPF32 (R83): 32 bits moved unchanged (R74). -/
def execTvpf32 (s : State) : Host.Outcome State Fault Refusal :=
  State.finish (s.pack (le32 s.arg0) tagFloat32)

/-- The rule of R84 for N = 0: `min(ARG1, 15)` bytes of TSTAGE verbatim, then zeros, tag Text; a longer text is truncated with
one warning. -/
def State.packText (s : State) : CmdOutcome × State :=
  let len := s.arg1.toNat
  let c := min len 15
  let s' := (s.useDraws 1).writeCell (s.readBytes s.draws .tstage 0 c) tagText
  if 15 < len then (.ok true, s'.notify .warning textTruncatedReason) else (.ok false, s')

/-- TVPTXT (R84): N = 1 is the null text, exactly TVCLR. -/
def execTvptxt (n : Bool) (s : State) : Host.Outcome State Fault Refusal :=
  State.finish (if n then s.pack [] tagEmpty else s.packText)

/-- TVGTAG (R85). -/
def execTvgtag (s : State) : Host.Outcome State Fault Refusal :=
  State.finish (s.answer 1 ((s.tvTag s.draws).zeroExtend 32))

/-- TVUI32 (R86): the tag must be Int32, else the answer is 0. -/
def execTvui32 (s : State) : Host.Outcome State Fault Refusal :=
  State.finish (s.answer 2 (if s.tvTag s.draws = tagInt32 then s.rd32le (s.draws + 1) .rbuf 0 else 0))

/-- TVUU16 (R87): the tag must be UInt16, else the answer is 0. -/
def execTvuu16 (s : State) : Host.Outcome State Fault Refusal :=
  State.finish (s.answer 2
    (if s.tvTag s.draws = tagUInt16 then (s.rd16le (s.draws + 1) .rbuf 0).zeroExtend 32 else 0))

/-- TVUF32 (R88): the tag must be Float32, else the answer is the bits of +0.0. -/
def execTvuf32 (s : State) : Host.Outcome State Fault Refusal :=
  State.finish (s.answer 2 (if s.tvTag s.draws = tagFloat32 then s.rd32le (s.draws + 1) .rbuf 0 else 0))

/-- The length of the text view (R89): the bytes before the first zero byte, or all of them. -/
def textLength (storage : List Byte) : Nat := (storage.takeWhile (· ≠ 0)).length

/-- TVUTXT (R89): the tag is not looked at, and the scan never leaves storage. -/
def execTvutxt (s : State) : Host.Outcome State Fault Refusal :=
  State.finish (s.answer 1 (BitVec.ofNat 32 (textLength (s.readBytes s.draws .rbuf 0 16))))

end Sys2Proof.Machine
end

