-- ==== Sys2Proof/Machine/Dispatch.lean ====
section
/-! DEFINITION. Which meaning each command has: `Execute(w)` after its decode (R55). -/

namespace Sys2Proof.Machine

def exec (i : Instr) (s : State) : Host.Outcome State Fault Refusal :=
  match i with
  | .serCmd => Sys2Proof.Machine.execSerCmd s
  | .serDsc => Sys2Proof.Machine.execSerDsc s
  | .serTel => Sys2Proof.Machine.execSerTel s
  | .serSet => Sys2Proof.Machine.execSerSet s
  | .serTv => Sys2Proof.Machine.execSerTv s
  | .desCmd => Sys2Proof.Machine.execDesCmd s
  | .desDsc => Sys2Proof.Machine.execDesDsc s
  | .desTel => Sys2Proof.Machine.execDesTel s
  | .desSet => Sys2Proof.Machine.execDesSet s
  | .desTv => Sys2Proof.Machine.execDesTv s
  | .crc => Sys2Proof.Machine.execCrc s
  | .tvclr => Sys2Proof.Machine.execTvclr s
  | .tvpi32 => Sys2Proof.Machine.execTvpi32 s
  | .tvpu16 => Sys2Proof.Machine.execTvpu16 s
  | .tvpf32 => Sys2Proof.Machine.execTvpf32 s
  | .tvptxt n => Sys2Proof.Machine.execTvptxt n s
  | .tvgtag => Sys2Proof.Machine.execTvgtag s
  | .tvui32 => Sys2Proof.Machine.execTvui32 s
  | .tvuu16 => Sys2Proof.Machine.execTvuu16 s
  | .tvuf32 => Sys2Proof.Machine.execTvuf32 s
  | .tvutxt => Sys2Proof.Machine.execTvutxt s

end Sys2Proof.Machine
end

