-- ==== Sys2Proof/Machine/HostPort.lean ====
section
/-! DEFINITION. The host's side of CFC (20_memory.md): where an access lands, whether it is legal, what it reads or writes,
issuing a command (R30), the hazard of an access while one is pending (R137), and the host's pseudo-operations (R57). -/

namespace Sys2Proof.Machine

/-- The number of bytes of an access. -/
def Width.bytes : Width → Nat
  | .w8 => 1
  | .w16 => 2
  | .w32 => 4

/-- The bits of an access's value, the rest 0. -/
def Width.mask (w : Width) (v : Word) : Word :=
  match w with
  | .w8 => v &&& 0xFF
  | .w16 => v &&& 0xFFFF
  | .w32 => v

/-- A number from its little-endian bytes (R39, R43). -/
def wordOfBytes : List Byte → Word
  | [] => 0
  | b :: bs => b.zeroExtend 32 ||| (wordOfBytes bs <<< 8)

/-- `v[8k+7:8k]` for `k` in `0..n-1` (R39). -/
def bytesOfWord (n : Nat) (v : Word) : List Byte :=
  (List.range n).map fun k => v.extractLsb' (8 * k) 8

/-- The register at word offset 4*`k` (R35). -/
def regAt (k : Nat) : Reg :=
  match k with
  | 0 => .cmd
  | 1 => .status
  | 2 => .err
  | 3 => .flen
  | 4 => .arg0
  | 5 => .arg1
  | 6 => .result
  | 7 => .crcr
  | _ => .param

/-- The offset of a register (R35). -/
def Reg.offset : Reg → Nat
  | .cmd => 0x000
  | .status => 0x004
  | .err => 0x008
  | .flen => 0x00C
  | .arg0 => 0x010
  | .arg1 => 0x014
  | .result => 0x018
  | .crcr => 0x01C
  | .param => 0x020

/-- What a legal access reaches: a register, or a buffer from byte `i` on. -/
inductive Target where
  | register (r : Reg)
  | buffer (b : Buffer) (i : Nat)
  deriving DecidableEq, Repr

/-- The buffer whose mapped range holds offset `o` (R35). -/
def bufferAt (c : Config) (o : Nat) : Option Buffer :=
  if 0x100 ≤ o ∧ o < 0x100 + Buffer.size c .tstage then some .tstage
  else if 0x200 ≤ o ∧ o < 0x200 + Buffer.size c .fbuf then some .fbuf
  else if 0x400 ≤ o ∧ o < 0x400 + Buffer.size c .rbuf then some .rbuf
  else none

/-- Where an access of width `w` at offset `o` lands, or why it is illegal (R38 to R40). An access is judged by the offset it
starts at (log 8). -/
def classify (c : Config) (o : Nat) (w : Width) : Except HostFaultReason Target :=
  if o < 0x24 then
    if w = .w32 ∧ o % 4 = 0 then .ok (.register (regAt (o / 4))) else .error .badAccess
  else
    match bufferAt c o with
    | none => .error .unmapped
    | some b =>
      if o % w.bytes = 0 ∧ o + w.bytes ≤ b.window + Buffer.size c b then .ok (.buffer b (o - b.window))
      else .error .badAccess

/-- The accesses allowed while a command is pending: a 4-byte read of STATUS or PARAM (R137). -/
def allowedWhileBusy (o : Nat) (w : Width) (isWrite : Bool) : Bool :=
  !isWrite && decide (w = .w32) && (decide (o = Reg.offset .status) || decide (o = Reg.offset .param))

/-- Where an access lands, the hazard of R137 before the rules of R38 to R40 (log 8). -/
def State.judge (s : State) (o : Nat) (w : Width) (isWrite : Bool) : Except HostFaultReason Target :=
  if s.pending.isSome && !allowedWhileBusy o w isWrite then .error .hazard else classify s.cfg o w

/-- What a host read of a register returns (R12 to R19); reserved bits read 0 (R42). -/
def State.regWord (s : State) : Reg → Word
  | .cmd => s.cmd
  | .status => s.statusWord
  | .err => s.errWord
  | .flen => s.flenWord
  | .arg0 => s.arg0
  | .arg1 => s.arg1
  | .result => s.result
  | .crcr => s.crcrWord
  | .param => paramWord s.cfg

/-- Issue (R30): CMD and PENDING take the word, which is not checked. -/
def State.issue (s : State) (w : Word) : State := { s with cmd := w, pending := some w }

/-- A legal host write to a register (R41, R42): the read-only ones ignore it, and a write to CMD issues (R30). -/
def State.writeReg (s : State) (r : Reg) (v : Word) : State :=
  match r with
  | .cmd => s.issue v
  | .flen => { s with flen := v.extractLsb' 0 16 }
  | .arg0 => { s with arg0 := v }
  | .arg1 => { s with arg1 := v }
  | .status | .err | .result | .crcr | .param => s

/-- The value a read of width `w` at offset `o` returns (R38 to R40, R123): the register or the bytes, or a free value if the
access is a host fault. -/
def State.readValue (s : State) (o : Nat) (w : Width) : Word :=
  match s.judge o w false with
  | .error _ => w.mask (Config.freeWord s.draws)
  | .ok (.register r) => s.regWord r
  | .ok (.buffer b i) => wordOfBytes (s.readBytes s.draws b i w.bytes)

/-- Record what a host read returned, and pass on to the next draw. -/
def State.logRead (s : State) (o : Nat) (w : Width) (v : Word) : State :=
  { s.useDraws 1 with readLog := s.readLog ++ [{ offset := o, width := w, value := v }] }

/-- `MemRead` at offset `o` (R38 to R40, R44, R137): no side effect on CFC; a host fault is recorded. -/
def State.hostRead (s : State) (o : Nat) (w : Width) : State :=
  let s' := s.logRead o w (s.readValue o w)
  match s.judge o w false with
  | .error r => s'.raiseHostFault r o w false
  | .ok _ => s'

/-- `MemWrite` at offset `o` (R38 to R42, R137): a host fault has no other effect. -/
def State.hostWrite (s : State) (o : Nat) (w : Width) (v : Word) : State :=
  match s.judge o w true with
  | .error r => s.raiseHostFault r o w true
  | .ok (.register r) => s.writeReg r v
  | .ok (.buffer b i) => s.writeBytes b i (bytesOfWord w.bytes v)

/-- Whether a host address lies in CFC's region, `BASE` to `BASE + 0xFFF` (R35). -/
def inRegion (c : Config) (addr : Nat) : Bool := decide (c.base ≤ addr) && decide (addr < c.base + 4096)

/-- The host makes its next access, if it has one to make (R10, R46). An address outside the region stops the model (log 7).
POLL reads STATUS and is done when BUSY reads 0, else it stays the host's next operation (R57). -/
def hostStep (s : State) : Host.Outcome State Fault Refusal :=
  match s.hostQueue with
  | [] => .next s
  | .read a w :: rest =>
    if inRegion s.cfg a then .next { s.hostRead (a - s.cfg.base) w with hostQueue := rest } else .fault .outsideRegion
  | .write a w v :: rest =>
    if inRegion s.cfg a then .next { s.hostWrite (a - s.cfg.base) w v with hostQueue := rest } else .fault .outsideRegion
  | .poll :: rest =>
    let s' := s.hostRead (Reg.offset .status) .w32
    if (s.readValue (Reg.offset .status) .w32).getLsbD 0 then .next s' else .next { s' with hostQueue := rest }

/-- `W32 off, v` (R57). -/
def w32 (c : Config) (off : Nat) (v : Word) : HostOp := .write (c.base + off) .w32 v

/-- `W16 off, v` (R57). -/
def w16 (c : Config) (off : Nat) (v : Word) : HostOp := .write (c.base + off) .w16 v

/-- `W8 off, v` (R57). -/
def w8 (c : Config) (off : Nat) (v : Word) : HostOp := .write (c.base + off) .w8 v

/-- `R32 off` (R57). -/
def r32 (c : Config) (off : Nat) : HostOp := .read (c.base + off) .w32

/-- `R8 off` (R57). -/
def r8 (c : Config) (off : Nat) : HostOp := .read (c.base + off) .w8

/-- `RUN m` (R57): write the word of `m` to CMD, then POLL. -/
def runOps (c : Config) (m : Instr) : List HostOp := [w32 c (Reg.offset .cmd) (encode m), .poll]

/-- One W8 per byte at consecutive offsets, the shape of PUTF, PUTR and PUTT (R57). -/
def putOps (c : Config) (off : Nat) : List Byte → List HostOp
  | [] => []
  | b :: bs => w8 c off (b.zeroExtend 32) :: putOps c (off + 1) bs

/-- `PUTF b0 ... bk-1` (R57): the bytes into FBUF, then FLEN <- k. -/
def putfOps (c : Config) (bs : List Byte) : List HostOp :=
  putOps c (Buffer.window .fbuf) bs ++ [w32 c (Reg.offset .flen) (BitVec.ofNat 32 bs.length)]

/-- `PUTR off: b0 ... bk-1` (R57). -/
def putrOps (c : Config) (off : Nat) (bs : List Byte) : List HostOp := putOps c (Buffer.window .rbuf + off) bs

/-- `PUTT b0 ... bk-1` (R57). -/
def puttOps (c : Config) (bs : List Byte) : List HostOp := putOps c (Buffer.window .tstage) bs

end Sys2Proof.Machine
end

