-- ==== Sys2Proof/Machine/Engine.lean ====
section
/-! DEFINITION. The engine's completion step (R31, R55) and whose turn the next step is (R10, R32, R46). -/

namespace Sys2Proof.Machine

/-- `Execute(w)` and its completion (R31, R55): decode the word, then run its command; an illegal word completes with
IllegalCommand (R55, R56). -/
def executeWord (w : Word) (s : State) : Host.Outcome State Fault Refusal :=
  match decodeWord w with
  | .ok i => exec i s
  | .error _ => State.finish (.err .illegalCommand, s)

/-- The engine's step, enabled only while a command is pending (R10, R31); otherwise CFC is idle (R131). -/
def engineStep (s : State) : Host.Outcome State Fault Refusal :=
  match s.pending with
  | some w => executeWord w s
  | none => .next s

/-- Whose turn the next step is: the schedule's next entry; when the schedule is used up, the engine's if a command is
pending, which is the weak fairness of R32, else the host's (log 4). -/
def State.turn (s : State) : Turn :=
  match s.turns with
  | t :: _ => t
  | [] => if s.pending.isSome then .engine else .host

/-- The state with its schedule's next entry used. -/
def State.useTurn (s : State) : State := { s with turns := s.turns.tail }

/-- One step of the agent whose turn it is (R10). -/
def runTurn (t : Turn) (s : State) : Host.Outcome State Fault Refusal :=
  match t with
  | .engine => engineStep s
  | .host => hostStep s
  | .reset => .next s.assertReset

/-- A table word as the 32-bit command word it is (R52). -/
def tableWord (nbits w : Nat) : Word := BitVec.ofNat 32 (w % 2 ^ nbits)

end Sys2Proof.Machine
end

