-- ==== Sys2Proof/WellFormed.lean ====
section
/-! DEFINITION. What is checked of the terms a claim may start from: a command (nothing is left to check, because every field
of `Instr` has exactly the values its word field has), and a set of build parameters (R6, R7). -/

namespace Sys2Proof

/-- Every term of `Instr` is a legal command: the kind is in the constructor and N is one bit (R52). The match names every
constructor so that a new one with an operand to check cannot slip past. -/
def Instr.wf : Instr → Bool
  | .serCmd | .serDsc | .serTel | .serSet | .serTv => true
  | .desCmd | .desDsc | .desTel | .desSet | .desTv => true
  | .crc | .tvclr | .tvpi32 | .tvpu16 | .tvpf32 => true
  | .tvptxt _ => true
  | .tvgtag | .tvui32 | .tvuu16 | .tvuf32 | .tvutxt => true

/-- The legal ranges of R6 and R7. "A configuration with `MAX_PAYLOAD_SIZE > 255` is not a CFC. A model refuses it." -/
def Config.wf (c : Config) : Bool :=
  decide (c.syncPattern ≤ 0x1F) &&
  decide (c.maxPayloadSize ≤ 255) &&
  decide (1 ≤ c.maxModules) && decide (c.maxModules ≤ 255) &&
  decide (c.base % 4096 = 0)

end Sys2Proof
end

