-- ==== Sys2Proof/Machine/Step.lean ====
section
/-! DEFINITION. One step of the machine: a host access, the engine's completion step or a reset, each indivisible (R10, R31,
R45, R133), in the order the schedule gives (R46). -/

namespace Sys2Proof.Machine

/-- One step. A state whose build parameters are illegal is no CFC and is refused (R7, 93 U9). -/
def step (s : State) : Host.Outcome State Fault Refusal :=
  if s.cfg.wf then runTurn s.turn s.useTurn else .refused .illegalConfiguration

/-- The state in which the command word `w` has been issued (R30) and the very next step is the engine's, so that `step` runs
exactly that command. CFC fetches nothing (R21): the word is latched in PENDING (R49). -/
def State.withFetchWord (s : State) (nbits w : Nat) : State :=
  { s.issue (tableWord nbits w) with turns := .engine :: s.turns }

end Sys2Proof.Machine
end

