-- ==== Sys2Proof/Machine/Records.lean ====
section
/-! DEFINITION. The typed records (R64 to R76) and their byte images. CFC itself moves bytes and interprets none of these fields
(R74, R75); they are here so that a claim can speak of a record where the spec does. -/

namespace Sys2Proof.Machine

/-- The five tags of R72. -/
inductive Tag where
  | empty
  | int32
  | uint16
  | float32
  | text
  deriving DecidableEq, Repr

/-- The code of a tag (R72). -/
def tagCode : Tag → Half
  | .empty => tagEmpty
  | .int32 => tagInt32
  | .uint16 => tagUInt16
  | .float32 => tagFloat32
  | .text => tagText

/-- The tag a code names; 5 to 65535 name none (R72). -/
def tagOfCode (v : Half) : Option Tag :=
  if v = tagEmpty then some .empty
  else if v = tagInt32 then some .int32
  else if v = tagUInt16 then some .uint16
  else if v = tagFloat32 then some .float32
  else if v = tagText then some .text
  else none

/-- A TV cell (R71): 16 storage bytes, "interpreted per `tag`", and any 16-bit tag (R72). -/
structure TvValue where
  storage : List Byte
  tag     : Half
  deriving DecidableEq, Repr

/-- The fields of a Command record (R65); the floats are 32 opaque bits (R74), s to v two's complement (R75). -/
structure CommandRecord where
  type : Half
  w : Word
  x : Word
  y : Word
  z : Word
  s : Half
  t : Half
  u : Half
  v : Half
  deriving DecidableEq, Repr

/-- ModuleInfo (R66). -/
structure ModuleInfo where
  typeId       : Half
  instanceId   : Byte
  capabilities : Word
  deriving DecidableEq, Repr

/-- A record of one of the five kinds (R65 to R70). -/
inductive Record where
  | command (r : CommandRecord)
  | discovery (moduleCount : Byte) (modules : List ModuleInfo)
  | telemetry (value : TvValue) (sourceId : Half) (timestamp : Word)
  | settings (value : TvValue) (settingsId : Half)
  | taggedValue (value : TvValue)
  deriving DecidableEq, Repr

/-- The kind of a record. -/
def Record.kind : Record → Kind
  | .command _ => .command
  | .discovery _ _ => .discovery
  | .telemetry _ _ _ => .telemetry
  | .settings _ _ => .settings
  | .taggedValue _ => .taggedValue

/-- The arrays have the lengths the layouts give them: 16 storage bytes, MAX_MODULES slots. -/
def Record.wf (c : Config) : Record → Bool
  | .command _ => true
  | .discovery _ ms => decide (ms.length = c.maxModules)
  | .telemetry v _ _ => decide (v.storage.length = 16)
  | .settings v _ => decide (v.storage.length = 16)
  | .taggedValue v => decide (v.storage.length = 16)

/-- The 18 bytes of a TV cell, storage first (R71). -/
def tvBytes (v : TvValue) : List Byte := v.storage ++ le16 v.tag

/-- The 7 bytes of a ModuleInfo (R66). -/
def moduleBytes (m : ModuleInfo) : List Byte := le16 m.typeId ++ [m.instanceId] ++ le32 m.capabilities

/-- The byte image of a record, its fields packed in the order of R65 to R70. -/
def Record.bytes : Record → List Byte
  | .command r =>
    le16 r.type ++ le32 r.w ++ le32 r.x ++ le32 r.y ++ le32 r.z ++ le16 r.s ++ le16 r.t ++ le16 r.u ++ le16 r.v
  | .discovery n ms => n :: ms.flatMap moduleBytes
  | .telemetry v sourceId timestamp => tvBytes v ++ le16 sourceId ++ le32 timestamp
  | .settings v settingsId => tvBytes v ++ le16 settingsId
  | .taggedValue v => tvBytes v

/-- The 16-bit field at offset `i` of an image. -/
def half (p : List Byte) (i : Nat) : Half := (p.getD i 0).zeroExtend 16 ||| ((p.getD (i + 1) 0).zeroExtend 16 <<< 8)

/-- The 32-bit field at offset `i` of an image. -/
def word (p : List Byte) (i : Nat) : Word :=
  (p.getD i 0).zeroExtend 32 ||| ((p.getD (i + 1) 0).zeroExtend 32 <<< 8) |||
    ((p.getD (i + 2) 0).zeroExtend 32 <<< 16) ||| ((p.getD (i + 3) 0).zeroExtend 32 <<< 24)

/-- The TV cell at offset 0 of an image (R71). -/
def tvOf (p : List Byte) : TvValue := { storage := p.take 16, tag := half p 16 }

/-- The ModuleInfo at offset `i` of an image (R66). -/
def moduleOf (p : List Byte) (i : Nat) : ModuleInfo :=
  { typeId := half p i, instanceId := p.getD (i + 2) 0, capabilities := word p (i + 3) }

/-- The record an image of kind `k` stands for, field by field at the offsets of R65 to R70. -/
def recordOf (c : Config) (k : Kind) (p : List Byte) : Record :=
  match k with
  | .command => .command
      { type := half p 0, w := word p 2, x := word p 6, y := word p 10, z := word p 14
        s := half p 18, t := half p 20, u := half p 22, v := half p 24 }
  | .discovery => .discovery (p.getD 0 0) ((List.range c.maxModules).map fun i => moduleOf p (1 + 7 * i))
  | .telemetry => .telemetry (tvOf p) (half p 18) (word p 20)
  | .settings => .settings (tvOf p) (half p 18)
  | .taggedValue => .taggedValue (tvOf p)

/-- The equality of R76 on two images of kind `k`: all bytes, but for Discovery only moduleCount and the slots below
`min(moduleCount, MAX_MODULES)`. -/
abbrev sameRecord (c : Config) (k : Kind) (p q : List Byte) : Prop :=
  match k with
  | .discovery =>
    p.head? = q.head? ∧
      p.take (1 + 7 * min (p.headD 0).toNat c.maxModules) = q.take (1 + 7 * min (p.headD 0).toNat c.maxModules)
  | _ => p = q

end Sys2Proof.Machine
end

