-- ==== Sys2Proof/Safety.lean ====
section
/-! DEFINITION. The terms in which claims speak: which bytes a buffer holds and which it may yield when read (R28), what every
state of a machine keeps, and when a host program's run is over and clean (R141, R123). -/

namespace Sys2Proof.Machine

/-- Bytes `i..i+bs.length` of the buffer have been written and are `bs`. -/
def State.Holds (s : State) (b : Buffer) (i : Nat) (bs : List Byte) : Prop :=
  ∀ j (h : j < bs.length), s.mem.byteAt (b.window + i + j) = some bs[j]

/-- Reading bytes `i..i+bs.length` of the buffer may give `bs`: each byte that has been written is what was written, and a byte
that has not may be anything (R28). -/
def State.Yields (s : State) (b : Buffer) (i : Nat) (bs : List Byte) : Prop :=
  ∀ j (h : j < bs.length) v, s.mem.byteAt (b.window + i + j) = some v → bs[j] = v

/-- The offset is a byte of a buffer (R35). -/
def Mapped (c : Config) (o : Nat) : Prop := ∃ b i, i < Buffer.size c b ∧ o = b.window + i

/-- A notification CFC can emit (R121): an error code 1 to 9, or the truncation warning. -/
def Note.Legal (n : Note) : Prop :=
  (n.severity = .error ∧ 1 ≤ n.reason.toNat ∧ n.reason.toNat ≤ 9) ∨ (n.severity = .warning ∧ n.reason = 0x10)

/-- What every state of a CFC keeps. -/
structure State.Inv (s : State) : Prop where
  /-- the buffers' bytes are listed in canonical form -/
  memCanonical : s.mem.wf
  /-- only bytes inside TSTAGE, FBUF and RBUF are ever written (R51, R39) -/
  memMapped : ∀ o v, s.mem.byteAt o = some v → Mapped s.cfg o
  /-- "CODE can only take the values 0 to 9" (R14) -/
  errRange : s.errCode.toNat ≤ 9
  /-- a truncation is no failure (R77, R117) -/
  truncIsOk : s.trunc = true → s.errCode = 0
  /-- the pending word is the one CMD shows: nothing changes CMD while it is pending (R30, R49) -/
  pendingIsCmd : ∀ w, s.pending = some w → s.cmd = w
  /-- only the notifications of R121 are ever emitted -/
  notesLegal : ∀ n ∈ s.notes, n.Legal
  /-- none is emitted when logging is disabled (R122) -/
  silentIfDisabled : s.cfg.logEnable = false → s.notes = []
  /-- HFAULT is a set (R34) -/
  hfaultSet : s.hfault.Nodup

/-- What a failing command leaves (R116, R117): ERR.CODE the code, TRUNC 0, nothing pending, one ERROR notification when
notifications are enabled, and the draws it used. -/
def State.failed (s : State) (code : Byte) (d : Nat) : State :=
  { s with
    errCode := code, trunc := false, pending := none, draws := d
    notes := s.notes ++ (if s.cfg.logEnable = true then [{ severity := .error, reason := code }] else []) }

/-- What the report of `Ok(false)` leaves (R117): ERR.CODE 0, TRUNC 0, nothing pending, no notification, and the draws used. -/
def State.succeeded (s : State) (d : Nat) : State :=
  { s with errCode := 0, trunc := false, pending := none, draws := d }

/-- The next step is the engine's, on a pending command. -/
def State.engineNext (s : State) : Prop :=
  s.cfg.wf = true ∧ (s.turns.head? = some .engine ∨ (s.turns = [] ∧ s.pending ≠ none))

/-- The next step is the host's. -/
def State.hostNext (s : State) : Prop :=
  s.cfg.wf = true ∧ (s.turns.head? = some .host ∨ (s.turns = [] ∧ s.pending = none))

/-- The next step is the platform asserting reset (R132). -/
def State.resetNext (s : State) : Prop := s.cfg.wf = true ∧ s.turns.head? = some .reset

/-- The state with the host's operation made and its turn used. -/
def State.hostMoved (s : State) (rest : List HostOp) : State := { s with turns := s.turns.tail, hostQueue := rest }

/-- HFAULT after one record is added to the set (R34, R123). -/
def State.FaultAdded (s t : State) (r : HostFaultRecord) : Prop := ∀ x, x ∈ t.hfault ↔ x ∈ s.hfault ∨ x = r

/-- The host's operation addresses CFC's region (R35). -/
def HostOp.inRegion (c : Config) : HostOp → Prop
  | .read a _ => c.base ≤ a ∧ a < c.base + 4096
  | .write a _ _ => c.base ≤ a ∧ a < c.base + 4096
  | .poll => True

/-- A host program's run is over: the last access is made and nothing is pending (R141). -/
def State.runOver (s : State) : Prop := s.hostQueue = [] ∧ s.pending = none

/-- A run is clean while the host has broken no access rule (R123, R141). -/
def State.clean (s : State) : Prop := s.hfault = []

end Sys2Proof.Machine
end

