-- ==== Sys2Proof/Certificates/Slice0/Obligations.lean ====
section
/-! DEFINITION. The statements for the provers. Each docstring names the rules of spec/ it rests on. `s.cfg` is arbitrary in every
statement over all states, so each holds for every build; a free value (R28, R123) is always bound by an existential, so no
statement rests on what one is, nor on the draw counter. -/

open Sys2Proof Sys2Proof.Machine

/-! ### Encodings -/

/-- R53: the opcode map and its 22 legal words, each written out; every OP value outside the map is illegal. -/
def Obligations.OpcodeMapWords : Prop :=
  decodeWord 0x00000001#32 = .ok .serCmd ∧ decodeWord 0x00000101#32 = .ok .serDsc ∧
  decodeWord 0x00000201#32 = .ok .serTel ∧ decodeWord 0x00000301#32 = .ok .serSet ∧
  decodeWord 0x00000401#32 = .ok .serTv ∧ decodeWord 0x00000002#32 = .ok .desCmd ∧
  decodeWord 0x00000102#32 = .ok .desDsc ∧ decodeWord 0x00000202#32 = .ok .desTel ∧
  decodeWord 0x00000302#32 = .ok .desSet ∧ decodeWord 0x00000402#32 = .ok .desTv ∧
  decodeWord 0x00000003#32 = .ok .crc ∧ decodeWord 0x00000010#32 = .ok .tvclr ∧
  decodeWord 0x00000011#32 = .ok .tvpi32 ∧ decodeWord 0x00000012#32 = .ok .tvpu16 ∧
  decodeWord 0x00000013#32 = .ok .tvpf32 ∧ decodeWord 0x00000014#32 = .ok (.tvptxt false) ∧
  decodeWord 0x00000814#32 = .ok (.tvptxt true) ∧ decodeWord 0x00000018#32 = .ok .tvgtag ∧
  decodeWord 0x00000019#32 = .ok .tvui32 ∧ decodeWord 0x0000001A#32 = .ok .tvuu16 ∧
  decodeWord 0x0000001B#32 = .ok .tvuf32 ∧ decodeWord 0x0000001C#32 = .ok .tvutxt ∧
  ∀ w : Word, w.toNat % 256 ∉ [0x01, 0x02, 0x03, 0x10, 0x11, 0x12, 0x13, 0x14, 0x18, 0x19, 0x1A, 0x1B, 0x1C] →
    ∃ e, decodeWord w = .error e

/-- R52, R53, R55: a word decodes to a command exactly when it is that command's encoding, so decode and encode are inverse to
each other and no word but an encoding is accepted. -/
def Obligations.DecodeExactlyInvertsEncode : Prop :=
  ∀ (w : Word) (i : Instr), i.wf = true → (decodeWord w = .ok i ↔ w = encode i)

/-- R62: the header packs the sync pattern into bits 4:0 and the kind into bits 7:5, and the two readers of it agree, for every
kind code 0 to 7 and every legal pattern; with pattern 0x02 the five headers are those of the rule. -/
def Obligations.HeaderPacksSyncAndKind : Prop :=
  (∀ (c : Config) (k : BitVec 3), c.syncPattern ≤ 0x1F →
    (encodeHeader c k).toNat = k.toNat * 32 + c.syncPattern ∧
    decodeType (encodeHeader c k) = k ∧ isValidHeader c (encodeHeader c k) = true) ∧
  (∀ (c : Config) (h : Byte), (decodeType h).toNat = h.toNat / 32 ∧
    (isValidHeader c h = true ↔ h.toNat % 32 = c.syncPattern)) ∧
  (∀ c : Config, c.syncPattern = 0x02 →
    encodeHeader c (Kind.code .command) = 0x02 ∧ encodeHeader c (Kind.code .discovery) = 0x22 ∧
    encodeHeader c (Kind.code .telemetry) = 0x42 ∧ encodeHeader c (Kind.code .settings) = 0x62 ∧
    encodeHeader c (Kind.code .taggedValue) = 0x82)

/-- R64 to R71: the byte image of a typed record has SIZE(K) bytes and its fields stand at the offsets of the layouts; and every
image of SIZE(K) bytes is the image of the record read from it. -/
def Obligations.RecordImagesRoundTrip : Prop :=
  (∀ (c : Config) (r : Record), r.wf c = true →
    r.bytes.length = kindSize c r.kind ∧ recordOf c r.kind r.bytes = r) ∧
  (∀ (c : Config) (k : Kind) (p : List Byte), p.length = kindSize c k →
    (recordOf c k p).wf c = true ∧ (recordOf c k p).bytes = p)

/-- R8: the sizes derived from the build parameters, and their bounds over the legal builds. -/
def Obligations.DerivedSizesBounded : Prop :=
  ∀ c : Config, c.wf = true →
    fbufSize c = 4 + c.maxPayloadSize ∧ fbufSize c ≤ 259 ∧ rbufSize c ≤ 1786 ∧
    kindSize c .command = 26 ∧ kindSize c .discovery = 1 + 7 * c.maxModules ∧ kindSize c .telemetry = 24 ∧
    kindSize c .settings = 20 ∧ kindSize c .taggedValue = 18 ∧
    (∀ k, kindSize c k ≤ rbufSize c) ∧ (∃ k, kindSize c k = rbufSize c)

/-! ### The step -/

/-- R31, R55: when it is the engine's turn and the pending word decodes to a command, the step is that command's `exec` on the
state with the turn used (whose turn it is comes from the schedule, which is the model's form of the free delay, log 4). The second
clause says the same of a command laid where the machine takes its next one from (log 5). -/
def Obligations.StepRunsPendingCommand : Prop :=
  (∀ (s : State) (w : Word) (i : Instr), s.engineNext → s.pending = some w → decodeWord w = .ok i →
    step s = exec i { s with turns := s.turns.tail }) ∧
  (∀ (s : State) (i : Instr), s.cfg.wf = true →
    step (s.withFetchWord 32 (encode i).toNat) = exec i { s with cmd := encode i, pending := some (encode i) })

/-- R56: a pending word outside the 22 legal ones completes with IllegalCommand (9) and changes nothing else, and a legal word
never completes with 9. -/
def Obligations.IllegalWordsCompleteWithNine : Prop :=
  ∀ (s : State) (w : Word), s.engineNext → s.pending = some w →
    (w.toNat ∉ [0x001, 0x101, 0x201, 0x301, 0x401, 0x002, 0x102, 0x202, 0x302, 0x402, 0x003, 0x010, 0x011, 0x012, 0x013,
        0x014, 0x814, 0x018, 0x019, 0x01A, 0x01B, 0x01C] →
      ∃ d, step s = .next ({ s with turns := s.turns.tail }.failed 9 d)) ∧
    (w.toNat ∈ [0x001, 0x101, 0x201, 0x301, 0x401, 0x002, 0x102, 0x202, 0x302, 0x402, 0x003, 0x010, 0x011, 0x012, 0x013,
        0x014, 0x814, 0x018, 0x019, 0x01A, 0x01B, 0x01C] →
      ∃ t, step s = .next t ∧ t.errCode ≠ 9)

/-- R133: one step of reset. Registers 0, PENDING none (so STATUS reads 0), every buffer byte unwritten; PARAM's parameters,
NOTES and HFAULT kept. -/
def Obligations.ResetStepLeaves : Prop :=
  ∀ s : State, s.resetNext → ∃ t, step s = .next t ∧
    t.cmd = 0 ∧ t.flen = 0 ∧ t.arg0 = 0 ∧ t.arg1 = 0 ∧ t.result = 0 ∧ t.crcr = 0 ∧
    t.trunc = false ∧ t.statusWord = 0 ∧ t.errCode = 0 ∧ t.pending = none ∧ t.cfg = s.cfg ∧
    (∀ o, t.mem.byteAt o = none) ∧ t.notes = s.notes ∧ t.hfault = s.hfault

/-- A build outside the legal ranges is refused by the step, and only such a one. R7 says so of MAX_PAYLOAD_SIZE; the other ranges are
those of R6, and refusing them, by `step` whoever's turn it is, is the model's reading of 93 U9 (log 11, DEDUCED). -/
def Obligations.IllegalConfigurationRefused : Prop :=
  ∀ s : State, step s = .refused .illegalConfiguration ↔
    ¬ (s.cfg.syncPattern ≤ 0x1F ∧ s.cfg.maxPayloadSize ≤ 255 ∧ 1 ≤ s.cfg.maxModules ∧ s.cfg.maxModules ≤ 255 ∧
      4096 ∣ s.cfg.base)

/-- R11, R14, R34, R51, R121, R122: the machine right after power-on meets the invariant, in every build, the one `State.reset` has
(the model's choice of parameters, log 1) among them. -/
def Obligations.ResetMeetsInvariant : Prop := (∀ c : Config, (State.resetOf c).Inv) ∧ State.reset.Inv

/-- R14, R30, R34, R49, R51, R121, R122: every step of any agent keeps the invariant: the buffers' canonical form, no byte
outside the buffers, ERR.CODE 0 to 9, TRUNC only after a success, the pending word equal to CMD, only legal notifications and none
when disabled, HFAULT a set. (A host access outside the region is no next state, log 7.) -/
def Obligations.EveryStepKeepsInvariant : Prop :=
  ∀ s t : State, s.Inv → step s = .next t → t.Inv

/-- R33, R34: whatever the step, NOTES only grows at its end, no HFAULT record is removed, and the build parameters stay. HFAULT is a
set in the spec; that its list keeps the order the records came in, so that the old list is a prefix of the new, is the model's
choice (log 12). -/
def Obligations.StepOnlyAppendsNotesAndFaults : Prop :=
  ∀ s t : State, step s = .next t → s.notes <+: t.notes ∧ s.hfault <+: t.hfault ∧ t.cfg = s.cfg

/-- R32, R31, R137: a pending command is completed after finitely many steps, and nothing the host does meanwhile reaches it:
unless reset is asserted first, within as many steps as the schedule has entries the machine comes to a step that completes
exactly that word, with every register and buffer byte as it was when the word was pending. (The schedule, log 4, is the model's
form of the free delay; a host access outside the region stops the model, log 7.) -/
def Obligations.PendingCommandCompletes : Prop :=
  ∀ (s : State) (w : Word), s.cfg.wf = true → s.pending = some w → Turn.reset ∉ s.turns →
    (∀ op ∈ s.hostQueue, op.inRegion s.cfg) →
    ∃ k u, k ≤ s.turns.length ∧ core.run k s = .next u ∧
      u.pending = some w ∧ u.cfg = s.cfg ∧ u.cmd = s.cmd ∧ u.trunc = s.trunc ∧ u.errCode = s.errCode ∧ u.flen = s.flen ∧
      u.arg0 = s.arg0 ∧ u.arg1 = s.arg1 ∧ u.result = s.result ∧ u.crcr = s.crcr ∧ u.mem = s.mem ∧ u.notes = s.notes ∧
      step u = executeWord w { u with turns := u.turns.tail } ∧ ∃ t, step u = .next t ∧ t.pending = none

/-! ### Whole-machine rules of the commands -/

/-- R114: every command, on every state, completes: it always has a next state, in which nothing is pending. -/
def Obligations.EveryCommandCompletes : Prop :=
  ∀ (i : Instr) (s : State), ∃ t, exec i s = .next t ∧ t.pending = none

/-- R114, R115, R117, R121: each completion writes ERR.CODE and TRUNC afresh: a success writes 0 and emits nothing, but for
the one warning of a truncating TVPTXT, which alone sets TRUNC; a failure writes a code 1 to 9, clears TRUNC and emits exactly one
ERROR notification of that code (when enabled). -/
def Obligations.CompletionReportsOutcome : Prop :=
  ∀ (i : Instr) (s t : State), exec i s = .next t →
    (t.trunc = true ↔ i = .tvptxt false ∧ 15 < s.arg1.toNat) ∧ (t.trunc = true → t.errCode = 0) ∧
    (t.errCode = 0 → t.notes = s.notes ++
      (if t.trunc = true ∧ s.cfg.logEnable = true then [{ severity := .warning, reason := 0x10 }] else [])) ∧
    (t.errCode ≠ 0 → 1 ≤ t.errCode.toNat ∧ t.errCode.toNat ≤ 9 ∧ t.notes = s.notes ++
      (if s.cfg.logEnable = true then [{ severity := .error, reason := t.errCode }] else []))

/-- R108, R116: a command that fails leaves every buffer byte, RESULT and CRCR as they were, and FLEN too unless it is a SER,
which sets it to 0. -/
def Obligations.FailureLeavesOutputs : Prop :=
  ∀ (i : Instr) (s t : State), exec i s = .next t → t.errCode ≠ 0 →
    t.mem = s.mem ∧ t.result = s.result ∧ t.crcr = s.crcr ∧
    ((∃ k, i = serInstr k) → t.flen = 0) ∧ ((∀ k, i ≠ serInstr k) → t.flen = s.flen)

/-- R11 (its column "written by CFC commands"), R16, R17, R18: which registers a command may write. For every command: the build
parameters, CMD, ARG0, ARG1, HFAULT and the host's side are unchanged; RESULT is unchanged but for the five that answer; CRCR but
for CRC; FLEN but for the five SER. -/
def Obligations.CommandsKeepOtherRegisters : Prop :=
  ∀ (i : Instr) (s t : State), exec i s = .next t →
    t.cfg = s.cfg ∧ t.cmd = s.cmd ∧ t.arg0 = s.arg0 ∧ t.arg1 = s.arg1 ∧ t.hfault = s.hfault ∧
    t.hostQueue = s.hostQueue ∧ t.turns = s.turns ∧ t.readLog = s.readLog ∧
    (i ∉ [Instr.tvgtag, .tvui32, .tvuu16, .tvuf32, .tvutxt] → t.result = s.result) ∧
    (i ≠ .crc → t.crcr = s.crcr) ∧ ((∀ k, i ≠ serInstr k) → t.flen = s.flen)

/-- R27: the frame of every command over the buffers. SER(K) stores to FBUF[0..4+SIZE(K)), DES(K) to RBUF[0..SIZE(K)), the five
packing commands to RBUF[0..18), and the others nowhere; every byte outside those reads as before (written with the same value,
or unwritten in both). A command that fails stores nothing at all. -/
def Obligations.CommandsWriteOnlyNamedBytes : Prop :=
  ∀ (i : Instr) (s t : State), exec i s = .next t → ∀ o : Nat,
    ((∀ k, i = serInstr k → o < Buffer.window .fbuf ∨ Buffer.window .fbuf + 4 + kindSize s.cfg k ≤ o) →
      (∀ k, i = desInstr k → o < Buffer.window .rbuf ∨ Buffer.window .rbuf + kindSize s.cfg k ≤ o) →
      (i ∈ [Instr.tvclr, .tvpi32, .tvpu16, .tvpf32, .tvptxt false, .tvptxt true] →
        o < Buffer.window .rbuf ∨ Buffer.window .rbuf + 18 ≤ o) →
      t.mem.byteAt o = s.mem.byteAt o) ∧
    (t.errCode ≠ 0 → t.mem.byteAt o = s.mem.byteAt o)

/-- R122: with notifications disabled a command does everything else the same, and NOTES stays. -/
def Obligations.DisabledLogChangesNothingElse : Prop :=
  ∀ (i : Instr) (s t : State), exec i s = .next t →
    exec i { s with cfg := { s.cfg with logEnable := false } } =
      .next { t with cfg := { t.cfg with logEnable := false }, notes := s.notes }

/-- R139: no hidden state carries over. Two states with the same parameters, operand registers FLEN, ARG0, ARG1 and buffer bytes
(and the same coming draws, log 2) give the same outcome, the same buffers, and the same new FLEN, RESULT and CRCR wherever the
command writes them, whatever the registers ERR, TRUNC, CMD, RESULT, CRCR, NOTES and HFAULT held. -/
def Obligations.ResultDependsOnOperandsOnly : Prop :=
  ∀ (i : Instr) (s₁ s₂ t₁ t₂ : State),
    s₁.cfg = s₂.cfg → s₁.flen = s₂.flen → s₁.arg0 = s₂.arg0 → s₁.arg1 = s₂.arg1 → s₁.mem = s₂.mem → s₁.draws = s₂.draws →
    exec i s₁ = .next t₁ → exec i s₂ = .next t₂ →
    t₁.errCode = t₂.errCode ∧ t₁.trunc = t₂.trunc ∧ t₁.mem = t₂.mem ∧ t₁.flen = t₂.flen ∧
    (i ∈ [Instr.tvgtag, .tvui32, .tvuu16, .tvuf32, .tvutxt] → t₁.result = t₂.result) ∧
    (i = .crc → t₁.errCode = 0 → t₁.crcr = t₂.crcr)

/-! ### CRC -/

/-- R110 (with R109, R111): the bytewise register of R109 is the bit-serial shift register with polynomial 0x1021, initial value
0xFFFF and no final XOR, fed each byte most significant bit first; its check value is 0x29B1. -/
def Obligations.CrcIsBitSerialMsbFirst : Prop :=
  crc16 [0x31, 0x32, 0x33, 0x34, 0x35, 0x36, 0x37, 0x38, 0x39] = 0x29B1 ∧
  ∀ m : List Byte, crc16 m =
    (m.flatMap fun b => [b.getLsbD 7, b.getLsbD 6, b.getLsbD 5, b.getLsbD 4, b.getLsbD 3, b.getLsbD 2, b.getLsbD 1,
        b.getLsbD 0]).foldl
      (fun (r : Half) bit => if (r.getLsbD 15 ^^ bit) = true then (r <<< 1) ^^^ 0x1021#16 else r <<< 1) 0xFFFF#16

/-- R113, laws 1 and 2: the CRC of nothing is 0xFFFF, and appending a message's CRC high byte first leaves remainder 0. -/
def Obligations.CrcBigEndianAppendIsZero : Prop :=
  crc16 [] = 0xFFFF ∧
  ∀ m : List Byte, crc16 (m ++ [(crc16 m).extractLsb' 8 8, (crc16 m).extractLsb' 0 8]) = 0

/-- R112: CRC checksums FBUF[ARG0 .. ARG0+ARG1) into CRCR, or fails with RangeInvalid when that range, computed without wrap,
leaves FBUF. -/
def Obligations.CrcCommandChecksumsRange : Prop :=
  decodeWord 0x00000003#32 = .ok .crc ∧
  ∀ s : State,
    (fbufSize s.cfg < s.arg0.toNat + s.arg1.toNat → ∃ d, exec .crc s = .next (s.failed 8 d)) ∧
    (s.arg0.toNat + s.arg1.toNat ≤ fbufSize s.cfg →
      ∃ m d, m.length = s.arg1.toNat ∧ s.Yields .fbuf s.arg0.toNat m ∧
        exec .crc s = .next ({ s with crcr := crc16 m }.succeeded d))

/-! ### Frames -/

/-- R91 (with R93, R58, R62, R63): SER(K), for all five kinds. A kind too large for the build fails with OversizedPayload and
FLEN 0. Otherwise the record bytes P are read from RBUF, Discovery's slots at or beyond P[0] are zeroed, and the frame header,
length, payload, CRC low byte, CRC high byte is stored at FBUF[0..4+n), with FLEN = 4+n. -/
def Obligations.SerBuildsFrame : Prop :=
  ∀ (k : Kind) (s : State),
    (s.cfg.maxPayloadSize < kindSize s.cfg k → ∃ d, exec (serInstr k) s = .next ({ s with flen := 0 }.failed 1 d)) ∧
    (kindSize s.cfg k ≤ s.cfg.maxPayloadSize →
      ∃ p d, p.length = kindSize s.cfg k ∧ s.Yields .rbuf 0 p ∧
        let q := p.mapIdx fun j b => if k = .discovery ∧ 1 + 7 * (p.headD 0).toNat ≤ j then 0 else b
        let f := encodeHeader s.cfg k.code :: BitVec.ofNat 8 (kindSize s.cfg k) :: q
        exec (serInstr k) s = .next ({ s with
          mem := s.mem.setRange (Buffer.window .fbuf) (f ++ [(crc16 f).extractLsb' 0 8, (crc16 f).extractLsb' 8 8])
          flen := BitVec.ofNat 16 (4 + kindSize s.cfg k) }.succeeded d))

/-- R104: size exactness. -/
def Obligations.SerFrameSizes : Prop :=
  ∀ (k : Kind) (s t : State), s.cfg.wf = true → exec (serInstr k) s = .next t → t.errCode = 0 →
    t.flen.toNat = 4 + kindSize s.cfg k ∧
    (k = .command → t.flen.toNat = 30) ∧ (k = .telemetry → t.flen.toNat = 28) ∧ (k = .settings → t.flen.toNat = 24) ∧
    (k = .taggedValue → t.flen.toNat = 22) ∧ (k = .discovery → t.flen.toNat = 5 + 7 * s.cfg.maxModules)

/-- R105: after a successful SER.CMD the first byte of FBUF is the raw sync pattern. -/
def Obligations.SerCommandHeaderIsSync : Prop :=
  ∀ s t : State, s.cfg.wf = true → exec .serCmd s = .next t → t.errCode = 0 →
    t.mem.byteAt (Buffer.window .fbuf) = some (BitVec.ofNat 8 s.cfg.syncPattern)

/-- R97 (with R115, R118): DES(K), for all five kinds. The seven checks in their order, each with its code, over what the reads
of FBUF give: the header h, the length byte l, the bytes m under the CRC, the trailer; then the payload p is stored at
RBUF[0..l). -/
def Obligations.DesChecksInOrder : Prop :=
  ∀ (k : Kind) (s : State), ∃ (h l : Byte) (m trailer p : List Byte) (d : Nat),
    s.Yields .fbuf 0 [h] ∧ s.Yields .fbuf 1 [l] ∧
    m.length = 2 + l.toNat ∧ s.Yields .fbuf 0 m ∧
    trailer.length = 2 ∧ s.Yields .fbuf (2 + l.toNat) trailer ∧
    p.length = l.toNat ∧ s.Yields .fbuf 2 p ∧
    exec (desInstr k) s = .next (
      if fbufSize s.cfg < s.flen.toNat then s.failed 8 d
      else if s.flen.toNat < 4 then s.failed 2 d
      else if h.toNat % 32 ≠ s.cfg.syncPattern then s.failed 3 d
      else if h.toNat / 32 ≠ k.code.toNat then s.failed 4 d
      else if s.flen.toNat ≠ 2 + l.toNat + 2 then s.failed 5 d
      else if l.toNat ≠ kindSize s.cfg k then s.failed 6 d
      else if [(crc16 m).extractLsb' 0 8, (crc16 m).extractLsb' 8 8] ≠ trailer then s.failed 7 d
      else { s with mem := s.mem.setRange (Buffer.window .rbuf) p }.succeeded d)

/-- R97, for all five kinds: on a complete frame of its kind, header, length SIZE(K), payload p and the CRC over them low byte
first, with FLEN its length, DES(K) succeeds and copies exactly p to RBUF[0..SIZE(K)). -/
def Obligations.DesAcceptsValidFrame : Prop :=
  ∀ (k : Kind) (s : State) (p : List Byte), s.cfg.wf = true → p.length = kindSize s.cfg k →
    p.length ≤ s.cfg.maxPayloadSize → s.flen.toNat = 4 + p.length →
    let body := BitVec.ofNat 8 (k.code.toNat * 32 + s.cfg.syncPattern) :: BitVec.ofNat 8 p.length :: p
    s.Holds .fbuf 0 (body ++ [(crc16 body).extractLsb' 0 8, (crc16 body).extractLsb' 8 8]) →
    ∃ d, exec (desInstr k) s = .next ({ s with mem := s.mem.setRange (Buffer.window .rbuf) p }.succeeded d)

/-- R9: a kind larger than the build's capacity is still legal, never serializes (OversizedPayload) and never deserializes. -/
def Obligations.OversizedKindNeverWorks : Prop :=
  ∀ (k : Kind) (s : State), s.cfg.maxPayloadSize < kindSize s.cfg k →
    decodeWord (encode (serInstr k)) = .ok (serInstr k) ∧ decodeWord (encode (desInstr k)) = .ok (desInstr k) ∧
    (∃ t, exec (serInstr k) s = .next t ∧ t.errCode = 1) ∧
    (∃ t, exec (desInstr k) s = .next t ∧ t.errCode ≠ 0)

/-- R103, R76: the round trip. After a successful SER.K, DES.K on any state with the same FBUF bytes, FLEN and parameters succeeds,
and RBUF holds a record equal (R76) to the one serialized: the very bytes, but for Discovery's slots at or beyond moduleCount,
which are zero. -/
def Obligations.SerDesRoundTrip : Prop :=
  ∀ (k : Kind) (s : State), s.cfg.wf = true → kindSize s.cfg k ≤ s.cfg.maxPayloadSize →
    ∃ t p, exec (serInstr k) s = .next t ∧ t.errCode = 0 ∧ p.length = kindSize s.cfg k ∧ s.Yields .rbuf 0 p ∧
      ∀ t' : State, t'.cfg = t.cfg → t'.flen = t.flen →
        (∀ i < fbufSize s.cfg, t'.mem.byteAt (Buffer.window .fbuf + i) = t.mem.byteAt (Buffer.window .fbuf + i)) →
        ∃ u q, exec (desInstr k) t' = .next u ∧ u.errCode = 0 ∧ u.Holds .rbuf 0 q ∧ q.length = kindSize s.cfg k ∧
          sameRecord s.cfg k p q ∧ (k ≠ .discovery → q = p) ∧
          (k = .discovery → ∀ j (hj : j < q.length), 1 + 7 * (p.headD 0).toNat ≤ j → q[j] = 0)

/-- R106: kind isolation. A frame made by SER.J fails DES.K with KindMismatch (4) for every other kind K. -/
def Obligations.KindIsolation : Prop :=
  ∀ (j k : Kind) (s t t' : State), s.cfg.wf = true → j ≠ k → exec (serInstr j) s = .next t → t.errCode = 0 →
    t'.cfg = t.cfg → t'.flen = t.flen →
    (∀ i < fbufSize s.cfg, t'.mem.byteAt (Buffer.window .fbuf + i) = t.mem.byteAt (Buffer.window .fbuf + i)) →
    ∃ u, exec (desInstr k) t' = .next u ∧ u.errCode = 4

/-- R107: single-bit corruption. Let f be the frame a successful SER.K left in FBUF[0..FLEN), and let one bit of one byte of it be
inverted, FLEN unchanged. DES.K fails, with the code its place gives. -/
def Obligations.SingleBitCorruptionDetected : Prop :=
  ∀ (k : Kind) (s t t' : State) (f : List Byte) (b : Nat) (i : Nat) (hb : b < f.length),
    s.cfg.wf = true → exec (serInstr k) s = .next t → t.errCode = 0 →
    f.length = t.flen.toNat → t.Holds .fbuf 0 f → i < 8 →
    t'.cfg = t.cfg → t'.flen = t.flen → t'.Holds .fbuf 0 (f.set b (f[b] ^^^ (1#8 <<< i))) →
    ∃ u, exec (desInstr k) t' = .next u ∧
      (b = 0 ∧ i < 5 → u.errCode = 3) ∧ (b = 0 ∧ 5 ≤ i → u.errCode = 4) ∧ (b = 1 → u.errCode = 5) ∧
      (2 ≤ b → u.errCode = 7)

/-- R113, law 4: on the frame of a successful SER.K, the CRC command over FBUF[0..FLEN-2) gives the frame's trailer. -/
def Obligations.CrcCommandMatchesTrailer : Prop :=
  ∀ (k : Kind) (s t t' : State), s.cfg.wf = true → exec (serInstr k) s = .next t → t.errCode = 0 →
    t'.cfg = t.cfg → t'.arg0 = 0 → t'.arg1.toNat = t.flen.toNat - 2 →
    (∀ i < fbufSize s.cfg, t'.mem.byteAt (Buffer.window .fbuf + i) = t.mem.byteAt (Buffer.window .fbuf + i)) →
    ∃ u, exec .crc t' = .next u ∧ u.errCode = 0 ∧
      t.Holds .fbuf (t.flen.toNat - 2) [u.crcr.extractLsb' 0 8, u.crcr.extractLsb' 8 8]

/-! ### The TV cell -/

/-- R80: TVCLR zeroes RBUF[0..18) and nothing else, with ERR 0 and TRUNC 0. -/
def Obligations.TvclrClearsCell : Prop :=
  decodeWord 0x00000010#32 = .ok .tvclr ∧
  ∀ s : State, ∃ d, exec .tvclr s = .next ({ s with
    mem := s.mem.setRange (Buffer.window .rbuf) (List.replicate 18 0) }.succeeded d)

/-- R81: TVPI32 stores ARG0 little-endian, zeros up to byte 15, tag 1. -/
def Obligations.Tvpi32PacksArgument : Prop :=
  decodeWord 0x00000011#32 = .ok .tvpi32 ∧
  ∀ s : State, ∃ d, exec .tvpi32 s = .next ({ s with
    mem := s.mem.setRange (Buffer.window .rbuf)
      ([s.arg0.extractLsb' 0 8, s.arg0.extractLsb' 8 8, s.arg0.extractLsb' 16 8, s.arg0.extractLsb' 24 8]
        ++ List.replicate 12 0 ++ [0x01, 0x00]) }.succeeded d)

/-- R82: TVPU16 stores ARG0[15:0] little-endian, zeros up to byte 15, tag 2; ARG0[31:16] is ignored. -/
def Obligations.Tvpu16PacksLowHalf : Prop :=
  decodeWord 0x00000012#32 = .ok .tvpu16 ∧
  ∀ s : State, ∃ d, exec .tvpu16 s = .next ({ s with
    mem := s.mem.setRange (Buffer.window .rbuf)
      ([s.arg0.extractLsb' 0 8, s.arg0.extractLsb' 8 8] ++ List.replicate 14 0 ++ [0x02, 0x00]) }.succeeded d)

/-- R83: TVPF32 stores the 32 bits of ARG0 unchanged, little-endian, zeros up to byte 15, tag 3. -/
def Obligations.Tvpf32PacksBits : Prop :=
  decodeWord 0x00000013#32 = .ok .tvpf32 ∧
  ∀ s : State, ∃ d, exec .tvpf32 s = .next ({ s with
    mem := s.mem.setRange (Buffer.window .rbuf)
      ([s.arg0.extractLsb' 0 8, s.arg0.extractLsb' 8 8, s.arg0.extractLsb' 16 8, s.arg0.extractLsb' 24 8]
        ++ List.replicate 12 0 ++ [0x03, 0x00]) }.succeeded d)

/-- R84: TVPTXT. With N = 1 it clears the cell. With N = 0 it stores the first min(ARG1, 15) bytes of TSTAGE, zeros up to byte 15,
tag 4; a longer text sets TRUNC and emits the one warning. -/
def Obligations.TvptxtPacksText : Prop :=
  decodeWord 0x00000014#32 = .ok (.tvptxt false) ∧ decodeWord 0x00000814#32 = .ok (.tvptxt true) ∧
  (∀ s : State, ∃ d, exec (.tvptxt true) s = .next ({ s with
    mem := s.mem.setRange (Buffer.window .rbuf) (List.replicate 18 0) }.succeeded d)) ∧
  (∀ s : State, ∃ text d, text.length = min s.arg1.toNat 15 ∧ s.Yields .tstage 0 text ∧
    let cell := text ++ List.replicate (16 - text.length) 0 ++ [0x04, 0x00]
    exec (.tvptxt false) s = .next (
      if 15 < s.arg1.toNat then
        { { s with mem := s.mem.setRange (Buffer.window .rbuf) cell }.succeeded d with
          trunc := true
          notes := s.notes ++ (if s.cfg.logEnable = true then [{ severity := .warning, reason := 0x10 }] else []) }
      else { s with mem := s.mem.setRange (Buffer.window .rbuf) cell }.succeeded d))

/-- R85: TVGTAG answers the 16-bit tag, whatever it is. -/
def Obligations.TvgtagReturnsTag : Prop :=
  decodeWord 0x00000018#32 = .ok .tvgtag ∧
  ∀ s : State, ∃ t0 t1 d, s.Yields .rbuf 16 [t0, t1] ∧
    exec .tvgtag s = .next ({ s with result := BitVec.ofNat 32 (t0.toNat + 256 * t1.toNat) }.succeeded d)

/-- R86: TVUI32 answers the stored 32 bits when the tag is 1, else 0. -/
def Obligations.Tvui32UnpacksOrZero : Prop :=
  decodeWord 0x00000019#32 = .ok .tvui32 ∧
  ∀ s : State, ∃ t0 t1 b0 b1 b2 b3 d, s.Yields .rbuf 16 [t0, t1] ∧ s.Yields .rbuf 0 [b0, b1, b2, b3] ∧
    exec .tvui32 s = .next ({ s with
      result := if t0.toNat + 256 * t1.toNat = 1 then
        BitVec.ofNat 32 (b0.toNat + 256 * b1.toNat + 65536 * b2.toNat + 16777216 * b3.toNat) else 0 }.succeeded d)

/-- R87: TVUU16 answers the stored 16 bits, zero-extended, when the tag is 2, else 0. -/
def Obligations.Tvuu16UnpacksOrZero : Prop :=
  decodeWord 0x0000001A#32 = .ok .tvuu16 ∧
  ∀ s : State, ∃ t0 t1 b0 b1 d, s.Yields .rbuf 16 [t0, t1] ∧ s.Yields .rbuf 0 [b0, b1] ∧
    exec .tvuu16 s = .next ({ s with
      result := if t0.toNat + 256 * t1.toNat = 2 then BitVec.ofNat 32 (b0.toNat + 256 * b1.toNat) else 0 }.succeeded d)

/-- R88: TVUF32 answers the stored 32 bits unchanged when the tag is 3, else 0. -/
def Obligations.Tvuf32UnpacksOrZero : Prop :=
  decodeWord 0x0000001B#32 = .ok .tvuf32 ∧
  ∀ s : State, ∃ t0 t1 b0 b1 b2 b3 d, s.Yields .rbuf 16 [t0, t1] ∧ s.Yields .rbuf 0 [b0, b1, b2, b3] ∧
    exec .tvuf32 s = .next ({ s with
      result := if t0.toNat + 256 * t1.toNat = 3 then
        BitVec.ofNat 32 (b0.toNat + 256 * b1.toNat + 65536 * b2.toNat + 16777216 * b3.toNat) else 0 }.succeeded d)

/-- R89: TVUTXT answers the number k of storage bytes before the first zero byte, or 16 if there is none; the tag is not read. -/
def Obligations.TvutxtMeasuresText : Prop :=
  decodeWord 0x0000001C#32 = .ok .tvutxt ∧
  ∀ s : State, ∃ (storage : List Byte) (k d : Nat), storage.length = 16 ∧ s.Yields .rbuf 0 storage ∧
    k ≤ 16 ∧ (∀ j (h : j < storage.length), j < k → storage[j] ≠ 0) ∧ (∀ h : k < storage.length, storage[k] = 0) ∧
    exec .tvutxt s = .next ({ s with result := BitVec.ofNat 32 k }.succeeded d)

/-- R90: what a pack (or clear) followed at once by an unpack (or tag query) answers. -/
def Obligations.PackThenUnpackLaws : Prop :=
  ∀ s : State,
    (∃ t u, exec .tvpi32 s = .next t ∧ exec .tvui32 t = .next u ∧ u.result = s.arg0) ∧
    (∃ t u, exec .tvpu16 s = .next t ∧ exec .tvuu16 t = .next u ∧ u.result.toNat = s.arg0.toNat % 65536) ∧
    (∃ t u, exec .tvpf32 s = .next t ∧ exec .tvuf32 t = .next u ∧ u.result = s.arg0) ∧
    (∀ pu ∈ [(Instr.tvpi32, Instr.tvuu16), (.tvpi32, .tvuf32), (.tvpu16, .tvui32), (.tvpu16, .tvuf32), (.tvpf32, .tvui32),
        (.tvpf32, .tvuu16), (.tvclr, .tvui32), (.tvclr, .tvuu16), (.tvclr, .tvuf32), (.tvclr, .tvutxt)],
      ∃ t u, exec pu.1 s = .next t ∧ exec pu.2 t = .next u ∧ u.result = 0) ∧
    (∃ text, text.length = min s.arg1.toNat 15 ∧ s.Yields .tstage 0 text ∧
      ∃ t u, exec (.tvptxt false) s = .next t ∧ exec .tvutxt t = .next u ∧ (u.result.toNat = text.length ↔ 0 ∉ text)) ∧
    (∃ t u, exec (.tvptxt false) s = .next t ∧ exec .tvgtag t = .next u ∧ u.result = 4)

/-- R77, R78: no TV command fails, in any state. The packing commands change RBUF[0..18) and nothing else but ERR and TRUNC; only a
truncating TVPTXT sets TRUNC, with exactly one warning (when enabled). The others change only RESULT beside ERR and TRUNC. -/
def Obligations.TvCommandsNeverFailAndStayInFrame : Prop :=
  ∀ (s : State) (i : Instr),
    (i ∈ [Instr.tvclr, .tvpi32, .tvpu16, .tvpf32, .tvptxt false, .tvptxt true] → ∃ t, exec i s = .next t ∧
      t = { s with errCode := 0, trunc := t.trunc, pending := none, mem := t.mem, notes := t.notes, draws := t.draws } ∧
      (t.trunc = true ↔ i = .tvptxt false ∧ 15 < s.arg1.toNat) ∧
      t.notes = s.notes ++
        (if t.trunc = true ∧ s.cfg.logEnable = true then [{ severity := .warning, reason := 0x10 }] else []) ∧
      ∀ o, o < Buffer.window .rbuf ∨ Buffer.window .rbuf + 18 ≤ o → t.mem.byteAt o = s.mem.byteAt o) ∧
    (i ∈ [Instr.tvgtag, .tvui32, .tvuu16, .tvuf32, .tvutxt] →
      ∃ v d, exec i s = .next ({ s with result := v }.succeeded d))

/-! ### The host's port -/

/-- R30: when the next step is the host's (log 4), a 4-byte write of w to CMD while nothing is pending sets CMD and
PENDING to w and changes nothing else, whatever w is. -/
def Obligations.WriteToCmdIssues : Prop :=
  ∀ (s : State) (v : Word) (rest : List HostOp), s.hostNext → s.pending = none →
    s.hostQueue = .write (s.cfg.base + 0x000) .w32 v :: rest →
    step s = .next { s.hostMoved rest with cmd := v, pending := some v }

/-- R41, R42: 4-byte writes of the other registers while idle: the read-only ones ignore them with no fault, FLEN keeps v[15:0],
ARG0 and ARG1 keep all 32 bits. -/
def Obligations.RegisterWritesStoreDefinedFields : Prop :=
  ∀ (s : State) (off : Nat) (v : Word) (rest : List HostOp), s.hostNext → s.pending = none →
    s.hostQueue = .write (s.cfg.base + off) .w32 v :: rest →
    (off ∈ [0x004, 0x008, 0x018, 0x01C, 0x020] → step s = .next (s.hostMoved rest)) ∧
    (off = 0x00C → step s = .next { s.hostMoved rest with flen := v.setWidth 16 }) ∧
    (off = 0x010 → step s = .next { s.hostMoved rest with arg0 := v }) ∧
    (off = 0x014 → step s = .next { s.hostMoved rest with arg1 := v })

/-- R12 to R19, R42: what a 4-byte read of each register returns while idle, reserved bits 0; and what STATUS and PARAM return at
any time. (What a read returned stands in the model's own read log, log 6.) -/
def Obligations.RegisterReadsReturnFields : Prop :=
  ∀ (s : State) (off : Nat) (rest : List HostOp), s.hostNext →
    s.hostQueue = .read (s.cfg.base + off) .w32 :: rest →
    off ∈ [0x000, 0x004, 0x008, 0x00C, 0x010, 0x014, 0x018, 0x01C, 0x020] →
    (s.pending = none ∨ off = 0x004 ∨ off = 0x020) →
    ∃ v d, step s = .next { s.hostMoved rest with
        readLog := s.readLog ++ [{ offset := off, width := .w32, value := v }], draws := d } ∧
      (off = 0x000 → v = s.cmd) ∧
      (off = 0x004 → v.toNat = (if s.trunc = true then 2 else 0) + (if s.pending = none then 0 else 1)) ∧
      (off = 0x008 → v.toNat = s.errCode.toNat) ∧
      (off = 0x00C → v.toNat = s.flen.toNat) ∧
      (off = 0x010 → v = s.arg0) ∧ (off = 0x014 → v = s.arg1) ∧ (off = 0x018 → v = s.result) ∧
      (off = 0x01C → v.toNat = s.crcr.toNat) ∧
      (off = 0x020 → v.toNat = s.cfg.syncPattern + 2 ^ 8 * s.cfg.maxPayloadSize + 2 ^ 16 * s.cfg.maxModules +
        2 ^ 24 * (if s.cfg.logEnable = true then 1 else 0))

/-- R39, R43: an access that starts in a buffer while idle. If it is naturally aligned and stays inside the buffer, a read returns
the bytes little-endian (an unwritten one anything, R28) and a write stores v[8k+7:8k] at byte i+k and touches no other byte. Any
other one has no effect but the record BadAccess (an access is judged by the offset it starts at: log 8, DEDUCED; what a read
returned stands in the model's own read log, log 6). -/
def Obligations.BufferAccessesLittleEndianOrRefused : Prop :=
  ∀ (s : State) (b : Buffer) (i : Nat) (w : Width) (v : Word) (rest : List HostOp), s.hostNext → s.pending = none →
    i < Buffer.size s.cfg b →
    (s.hostQueue = .read (s.cfg.base + (b.window + i)) w :: rest →
      ∃ x d, if (b.window + i) % w.bytes = 0 ∧ i + w.bytes ≤ Buffer.size s.cfg b then
          (∃ bs, bs.length = w.bytes ∧ s.Yields b i bs ∧ x.toNat = Nat.ofDigits 256 (bs.map BitVec.toNat) ∧
            step s = .next { s.hostMoved rest with
              readLog := s.readLog ++ [{ offset := b.window + i, width := w, value := x }], draws := d })
        else ∃ f, step s = .next { s.hostMoved rest with
              readLog := s.readLog ++ [{ offset := b.window + i, width := w, value := x }], draws := d, hfault := f } ∧
            ∀ r, r ∈ f ↔ r ∈ s.hfault ∨
              r = { reason := .badAccess, offset := b.window + i, width := w, isWrite := false }) ∧
    (s.hostQueue = .write (s.cfg.base + (b.window + i)) w v :: rest →
      ∃ t, step s = .next t ∧
        if (b.window + i) % w.bytes = 0 ∧ i + w.bytes ≤ Buffer.size s.cfg b then
          t = { s.hostMoved rest with mem := t.mem } ∧
          (∀ k < w.bytes, t.mem.byteAt (b.window + i + k) = some (v.extractLsb' (8 * k) 8)) ∧
          (∀ o, o < b.window + i ∨ b.window + i + w.bytes ≤ o → t.mem.byteAt o = s.mem.byteAt o)
        else
          t = { s.hostMoved rest with hfault := t.hfault } ∧
          s.FaultAdded t { reason := .badAccess, offset := b.window + i, width := w, isWrite := true })

/-- R38: an access at a register offset that is not a 4-byte access at a multiple of 4 has no effect but the record BadAccess; a
read of that kind returns an arbitrary value. Judging an access by the offset it starts at is the model's reading (log 8, DEDUCED):
one from 0x021 to 0x023 that reaches past 0x023 also touches the unmapped 0x024, of which R40 speaks, and is BadAccess here.
While a command is pending the record is Hazard instead (log 8 too), so the statement speaks of an idle CFC. -/
def Obligations.RegisterAccessesMustBeWords : Prop :=
  ∀ (s : State) (off : Nat) (w : Width) (v : Word) (rest : List HostOp), s.hostNext → s.pending = none →
    off < 0x24 → ¬ (w = .w32 ∧ 4 ∣ off) →
    (s.hostQueue = .write (s.cfg.base + off) w v :: rest →
      ∃ t, step s = .next t ∧ t = { s.hostMoved rest with hfault := t.hfault } ∧
        s.FaultAdded t { reason := .badAccess, offset := off, width := w, isWrite := true }) ∧
    (s.hostQueue = .read (s.cfg.base + off) w :: rest →
      ∃ t x, step s = .next t ∧
        t = { s.hostMoved rest with
          hfault := t.hfault, draws := t.draws, readLog := s.readLog ++ [{ offset := off, width := w, value := x }] } ∧
        s.FaultAdded t { reason := .badAccess, offset := off, width := w, isWrite := false })

/-- R40, R35 (with log 8: an access is judged by the offset it starts at): an access that starts at an unmapped offset of the region
while idle has no effect but the record Unmapped. -/
def Obligations.UnmappedAccessesRecorded : Prop :=
  ∀ (s : State) (off : Nat) (w : Width) (v : Word) (rest : List HostOp), s.hostNext → s.pending = none →
    0x24 ≤ off → off < 4096 → ¬ Mapped s.cfg off →
    (s.hostQueue = .write (s.cfg.base + off) w v :: rest →
      ∃ t, step s = .next t ∧ t = { s.hostMoved rest with hfault := t.hfault } ∧
        s.FaultAdded t { reason := .unmapped, offset := off, width := w, isWrite := true }) ∧
    (s.hostQueue = .read (s.cfg.base + off) w :: rest →
      ∃ t x, step s = .next t ∧
        t = { s.hostMoved rest with
          hfault := t.hfault, draws := t.draws, readLog := s.readLog ++ [{ offset := off, width := w, value := x }] } ∧
        s.FaultAdded t { reason := .unmapped, offset := off, width := w, isWrite := false })

/-- R137: while a command is pending, every access but a 4-byte read of STATUS or PARAM is a hazard: it has no effect on CFC, the
pending word included, and is recorded; a read returns an arbitrary value. That the Hazard record is the one record also where
the width, alignment or offset is illegal, for which R38 to R40 name another reason, is the model's reading (log 8, DEDUCED). -/
def Obligations.AccessWhileBusyIsHazard : Prop :=
  ∀ (s : State) (off : Nat) (w : Width) (v : Word) (rest : List HostOp), s.hostNext → s.pending ≠ none → off < 4096 →
    (s.hostQueue = .write (s.cfg.base + off) w v :: rest →
      ∃ t, step s = .next t ∧ t = { s.hostMoved rest with hfault := t.hfault } ∧
        s.FaultAdded t { reason := .hazard, offset := off, width := w, isWrite := true }) ∧
    (s.hostQueue = .read (s.cfg.base + off) w :: rest → ¬ (w = .w32 ∧ (off = 0x004 ∨ off = 0x020)) →
      ∃ t x, step s = .next t ∧
        t = { s.hostMoved rest with
          hfault := t.hfault, draws := t.draws, readLog := s.readLog ++ [{ offset := off, width := w, value := x }] } ∧
        s.FaultAdded t { reason := .hazard, offset := off, width := w, isWrite := false })

/-- R44: no host read, and no POLL, has a side effect: whatever it reads and wherever, every register, every buffer byte, PENDING
and NOTES stay. (What a read returned is kept in the model's own read log, log 6.) -/
def Obligations.HostReadsHaveNoSideEffect : Prop :=
  ∀ (s t : State) (op : HostOp) (rest : List HostOp), s.hostNext → s.hostQueue = op :: rest →
    (op = .poll ∨ ∃ a w, op = .read a w) → step s = .next t →
    t.cfg = s.cfg ∧ t.cmd = s.cmd ∧ t.trunc = s.trunc ∧ t.errCode = s.errCode ∧ t.flen = s.flen ∧ t.arg0 = s.arg0 ∧
    t.arg1 = s.arg1 ∧ t.result = s.result ∧ t.crcr = s.crcr ∧ t.mem = s.mem ∧ t.pending = s.pending ∧ t.notes = s.notes

/-- R57, R47: POLL reads STATUS and is over exactly when nothing is pending; until then it stays the host's next operation. That
POLL is one operation which stays at the head of the host's list is the model's choice (log 9); the list and the record of what
was read are logs 5 and 6. It never faults. -/
def Obligations.PollEndsExactlyWhenIdle : Prop :=
  ∀ (s : State) (rest : List HostOp), s.hostNext → s.hostQueue = .poll :: rest →
    ∃ t, step s = .next t ∧ t.hfault = s.hfault ∧
      (t.hostQueue = rest ↔ s.pending = none) ∧ (t.hostQueue = .poll :: rest ↔ s.pending ≠ none) ∧
      t.readLog = s.readLog ++ [{ offset := 0x004, width := .w32, value := s.statusWord }]

/-- R28, R39: a byte that has been written is read as written from then on, under every draw, and a write leaves every other byte
alone. -/
def Obligations.WrittenBytesReadBack : Prop :=
  ∀ (s : State) (b : Buffer) (i : Nat) (v : List Byte) (t : Nat),
    (∀ j (h : j < v.length), (s.writeBytes b i v).readByte t b (i + j) = v[j]) ∧
    (∀ b' j, b'.window + j < b.window + i ∨ b.window + i + v.length ≤ b'.window + j →
      (s.writeBytes b i v).readByte t b' j = s.readByte t b' j)

/-- R35 (with log 7): an access outside CFC's region stops the model, with a fault of its own name. -/
def Obligations.AccessOutsideRegionStops : Prop :=
  ∀ (s : State) (addr : Nat) (w : Width) (v : Word) (rest : List HostOp), s.hostNext →
    (addr < s.cfg.base ∨ s.cfg.base + 4096 ≤ addr) →
    (s.hostQueue = .read addr w :: rest ∨ s.hostQueue = .write addr w v :: rest) →
    step s = .fault .outsideRegion
end

