-- ==== Sys2Proof/Laws/Bits.lean ====
section
/-! SUPPORT. The bit fields and little-endian values as numbers, so that no later proof works on their bits. -/

namespace Sys2Proof

/-- The fields of a command word put together again. -/
theorem opField_commandWord (op : BitVec 8) (k : BitVec 3) (n : Bool) : opField (commandWord op k n) = op := by
  apply BitVec.eq_of_getLsbD_eq
  intro i hi
  have h1 : ¬ 8 ≤ i := by omega
  have h2 : i < 32 := by omega
  have h3 : i < 11 := by omega
  simp [opField, commandWord, hi, h2, h3]

theorem kindField_commandWord (op : BitVec 8) (k : BitVec 3) (n : Bool) : kindField (commandWord op k n) = k := by
  apply BitVec.eq_of_getLsbD_eq
  intro i hi
  have h1 : 8 + i < 32 := by omega
  have h2 : 8 + i < 11 := by omega
  simp [kindField, commandWord, hi, h1, h2]

theorem nullField_commandWord (op : BitVec 8) (k : BitVec 3) (n : Bool) : nullField (commandWord op k n) = n := by
  simp [nullField, commandWord]

theorem reservedField_commandWord (op : BitVec 8) (k : BitVec 3) (n : Bool) :
    reservedField (commandWord op k n) = 0 := by
  apply BitVec.eq_of_getLsbD_eq
  intro i hi
  have h1 : 12 + i - 11 ≠ 0 := by omega
  simp [reservedField, commandWord, hi, h1]
  exact ⟨fun _ => BitVec.getLsbD_of_ge _ _ (by omega), fun _ _ _ => BitVec.getLsbD_of_ge _ _ (by omega)⟩

/-- A word with reserved bits 0 is the command word of its fields. -/
theorem commandWord_of_fields (w : Word) (h : reservedField w = 0) :
    commandWord (opField w) (kindField w) (nullField w) = w := by
  apply BitVec.eq_of_getLsbD_eq
  intro i hi
  have hr : 12 ≤ i → w.getLsbD i = false := by
    intro h12
    have := congrArg (fun x => BitVec.getLsbD x (i - 12)) h
    simp only [reservedField, BitVec.getLsbD_extractLsb'] at this
    have e : 12 + (i - 12) = i := by omega
    rw [e] at this
    have : i - 12 < 20 := by omega
    simp_all
  by_cases h1 : i < 8
  · simp [commandWord, opField, hi, h1]; omega
  · by_cases h2 : i < 11
    · have e : 8 + (i - 8) = i := by omega
      have h3 : i - 8 < 3 := by omega
      have h4 : i < 11 := by omega
      simp [commandWord, opField, kindField, hi, h1, h3, h4, e]
    · by_cases h3 : i = 11
      · subst h3; simp [commandWord, opField, kindField, nullField]
      · rw [hr (by omega)]
        simp [commandWord, opField, kindField, nullField, hi, h1, h2]
        omega

end Sys2Proof

namespace Sys2Proof.Machine

theorem le16_toNat (a b : Byte) :
    (a.zeroExtend 16 ||| (b.zeroExtend 16 <<< 8)).toNat = a.toNat + 256 * b.toNat := by
  have ha := a.isLt
  have hb := b.isLt
  have e : a.zeroExtend 16 ||| (b.zeroExtend 16 <<< 8) = a.zeroExtend 16 + (b.zeroExtend 16 <<< 8) := by
    rw [BitVec.add_eq_or_of_and_eq_zero]
    apply BitVec.eq_of_getLsbD_eq
    intro i hi
    by_cases h : i < 8
    · simp [h]
    · simp [BitVec.getLsbD_of_ge a i (by omega)]
  rw [e]
  simp only [BitVec.toNat_add, BitVec.truncate_eq_setWidth, BitVec.toNat_setWidth, BitVec.toNat_shiftLeft, Nat.shiftLeft_eq]
  omega

theorem le32_toNat (a b c d : Byte) :
    (a.zeroExtend 32 ||| (b.zeroExtend 32 <<< 8) ||| (c.zeroExtend 32 <<< 16) ||| (d.zeroExtend 32 <<< 24)).toNat =
      a.toNat + 256 * b.toNat + 65536 * c.toNat + 16777216 * d.toNat := by
  have ha := a.isLt
  have hb := b.isLt
  have hc := c.isLt
  have hd := d.isLt
  have e : a.zeroExtend 32 ||| (b.zeroExtend 32 <<< 8) ||| (c.zeroExtend 32 <<< 16) ||| (d.zeroExtend 32 <<< 24) =
      a.zeroExtend 32 + (b.zeroExtend 32 <<< 8) + (c.zeroExtend 32 <<< 16) + (d.zeroExtend 32 <<< 24) := by
    rw [BitVec.add_eq_or_of_and_eq_zero (a.zeroExtend 32), BitVec.add_eq_or_of_and_eq_zero (_ ||| _),
      BitVec.add_eq_or_of_and_eq_zero (_ ||| _ ||| _)]
    all_goals
      apply BitVec.eq_of_getLsbD_eq
      intro i hi
      simp only [BitVec.getLsbD_and, BitVec.getLsbD_or, BitVec.getLsbD_shiftLeft, BitVec.truncate_eq_setWidth,
        BitVec.getLsbD_setWidth, BitVec.getLsbD_zero]
      rcases Nat.lt_or_ge i 8 with h | h
      · simp [h]; try omega
      · rcases Nat.lt_or_ge i 16 with h' | h'
        · simp [BitVec.getLsbD_of_ge a i h, h', show i < 24 by omega]
        · rcases Nat.lt_or_ge i 24 with h'' | h''
          · simp [BitVec.getLsbD_of_ge a i h, BitVec.getLsbD_of_ge b (i - 8) (by omega), h'']
          · simp [BitVec.getLsbD_of_ge a i h, BitVec.getLsbD_of_ge b (i - 8) (by omega),
              BitVec.getLsbD_of_ge c (i - 16) (by omega)]
  rw [e]
  simp only [BitVec.toNat_add, BitVec.truncate_eq_setWidth, BitVec.toNat_setWidth, BitVec.toNat_shiftLeft, Nat.shiftLeft_eq]
  omega

/-- A number is its little-endian bytes (R60). -/
theorem toNat_bytes32 (v : Word) :
    v.toNat = (v.extractLsb' 0 8).toNat + 256 * (v.extractLsb' 8 8).toNat + 65536 * (v.extractLsb' 16 8).toNat +
      16777216 * (v.extractLsb' 24 8).toNat := by
  have := v.isLt
  simp only [BitVec.extractLsb'_toNat, Nat.shiftRight_eq_div_pow]
  omega

theorem toNat_bytes16 (v : Half) : v.toNat = (v.extractLsb' 0 8).toNat + 256 * (v.extractLsb' 8 8).toNat := by
  have := v.isLt
  simp only [BitVec.extractLsb'_toNat, Nat.shiftRight_eq_div_pow]
  omega

/-- Little-endian bytes put together again give the number they came from. -/
theorem le32_of_bytes (v : Word) :
    (v.extractLsb' 0 8).zeroExtend 32 ||| ((v.extractLsb' 8 8).zeroExtend 32 <<< 8) |||
      ((v.extractLsb' 16 8).zeroExtend 32 <<< 16) ||| ((v.extractLsb' 24 8).zeroExtend 32 <<< 24) = v :=
  BitVec.eq_of_toNat_eq (by rw [le32_toNat, ← toNat_bytes32])

theorem le16_of_bytes (v : Half) :
    (v.extractLsb' 0 8).zeroExtend 16 ||| ((v.extractLsb' 8 8).zeroExtend 16 <<< 8) = v :=
  BitVec.eq_of_toNat_eq (by rw [le16_toNat, ← toNat_bytes16])

/-- The bytes of a number put together from bytes are those bytes. -/
theorem bytes_of_le16 (a b : Byte) : le16 (a.zeroExtend 16 ||| (b.zeroExtend 16 <<< 8)) = [a, b] := by
  have ha := a.isLt
  have hb := b.isLt
  simp only [le16, List.cons.injEq, and_true]
  constructor <;> apply BitVec.eq_of_toNat_eq <;>
    rw [BitVec.extractLsb'_toNat, le16_toNat, Nat.shiftRight_eq_div_pow] <;> omega

theorem bytes_of_le32 (a b c d : Byte) :
    le32 (a.zeroExtend 32 ||| (b.zeroExtend 32 <<< 8) ||| (c.zeroExtend 32 <<< 16) ||| (d.zeroExtend 32 <<< 24)) =
      [a, b, c, d] := by
  have ha := a.isLt
  have hb := b.isLt
  have hc := c.isLt
  have hd := d.isLt
  simp only [le32, List.cons.injEq, and_true]
  refine ⟨?_, ?_, ?_, ?_⟩ <;> apply BitVec.eq_of_toNat_eq <;>
    rw [BitVec.extractLsb'_toNat, le32_toNat, Nat.shiftRight_eq_div_pow] <;> omega

/-- `rd16le` as a number (00, section 4). -/
theorem State.rd16le_toNat (s : State) (t : Nat) (b : Buffer) (i : Nat) :
    (s.rd16le t b i).toNat = (s.readByte t b i).toNat + 256 * (s.readByte t b (i + 1)).toNat := le16_toNat _ _

/-- `rd32le` as a number (00, section 4). -/
theorem State.rd32le_toNat (s : State) (t : Nat) (b : Buffer) (i : Nat) :
    (s.rd32le t b i).toNat = (s.readByte t b i).toNat + 256 * (s.readByte t b (i + 1)).toNat +
      65536 * (s.readByte t b (i + 2)).toNat + 16777216 * (s.readByte t b (i + 3)).toNat := le32_toNat _ _ _ _

end Sys2Proof.Machine
end

