-- ==== Sys2Proof/Laws/State.lean ====
section
/-! SUPPORT. One lemma for each field under each named update of the state, so that no later proof unfolds a record update. -/

namespace Sys2Proof.Machine

variable (s : State)

/-! ### useDraws -/

@[simp] theorem State.useDraws_cfg (k : Nat) : (s.useDraws k).cfg = s.cfg := rfl
@[simp] theorem State.useDraws_cmd (k : Nat) : (s.useDraws k).cmd = s.cmd := rfl
@[simp] theorem State.useDraws_trunc (k : Nat) : (s.useDraws k).trunc = s.trunc := rfl
@[simp] theorem State.useDraws_errCode (k : Nat) : (s.useDraws k).errCode = s.errCode := rfl
@[simp] theorem State.useDraws_flen (k : Nat) : (s.useDraws k).flen = s.flen := rfl
@[simp] theorem State.useDraws_arg0 (k : Nat) : (s.useDraws k).arg0 = s.arg0 := rfl
@[simp] theorem State.useDraws_arg1 (k : Nat) : (s.useDraws k).arg1 = s.arg1 := rfl
@[simp] theorem State.useDraws_result (k : Nat) : (s.useDraws k).result = s.result := rfl
@[simp] theorem State.useDraws_crcr (k : Nat) : (s.useDraws k).crcr = s.crcr := rfl
@[simp] theorem State.useDraws_mem (k : Nat) : (s.useDraws k).mem = s.mem := rfl
@[simp] theorem State.useDraws_pending (k : Nat) : (s.useDraws k).pending = s.pending := rfl
@[simp] theorem State.useDraws_notes (k : Nat) : (s.useDraws k).notes = s.notes := rfl
@[simp] theorem State.useDraws_hfault (k : Nat) : (s.useDraws k).hfault = s.hfault := rfl
@[simp] theorem State.useDraws_hostQueue (k : Nat) : (s.useDraws k).hostQueue = s.hostQueue := rfl
@[simp] theorem State.useDraws_turns (k : Nat) : (s.useDraws k).turns = s.turns := rfl
@[simp] theorem State.useDraws_readLog (k : Nat) : (s.useDraws k).readLog = s.readLog := rfl
@[simp] theorem State.useDraws_draws (k : Nat) : (s.useDraws k).draws = s.draws + k := rfl

/-! ### writeBytes -/

@[simp] theorem State.writeBytes_cfg (b : Buffer) (i : Nat) (v : List Byte) : (s.writeBytes b i v).cfg = s.cfg := rfl
@[simp] theorem State.writeBytes_cmd (b : Buffer) (i : Nat) (v : List Byte) : (s.writeBytes b i v).cmd = s.cmd := rfl
@[simp] theorem State.writeBytes_trunc (b : Buffer) (i : Nat) (v : List Byte) : (s.writeBytes b i v).trunc = s.trunc := rfl
@[simp] theorem State.writeBytes_errCode (b : Buffer) (i : Nat) (v : List Byte) : (s.writeBytes b i v).errCode = s.errCode := rfl
@[simp] theorem State.writeBytes_flen (b : Buffer) (i : Nat) (v : List Byte) : (s.writeBytes b i v).flen = s.flen := rfl
@[simp] theorem State.writeBytes_arg0 (b : Buffer) (i : Nat) (v : List Byte) : (s.writeBytes b i v).arg0 = s.arg0 := rfl
@[simp] theorem State.writeBytes_arg1 (b : Buffer) (i : Nat) (v : List Byte) : (s.writeBytes b i v).arg1 = s.arg1 := rfl
@[simp] theorem State.writeBytes_result (b : Buffer) (i : Nat) (v : List Byte) : (s.writeBytes b i v).result = s.result := rfl
@[simp] theorem State.writeBytes_crcr (b : Buffer) (i : Nat) (v : List Byte) : (s.writeBytes b i v).crcr = s.crcr := rfl
@[simp] theorem State.writeBytes_mem (b : Buffer) (i : Nat) (v : List Byte) : (s.writeBytes b i v).mem = s.mem.setRange (b.window + i) v := rfl
@[simp] theorem State.writeBytes_pending (b : Buffer) (i : Nat) (v : List Byte) : (s.writeBytes b i v).pending = s.pending := rfl
@[simp] theorem State.writeBytes_notes (b : Buffer) (i : Nat) (v : List Byte) : (s.writeBytes b i v).notes = s.notes := rfl
@[simp] theorem State.writeBytes_hfault (b : Buffer) (i : Nat) (v : List Byte) : (s.writeBytes b i v).hfault = s.hfault := rfl
@[simp] theorem State.writeBytes_hostQueue (b : Buffer) (i : Nat) (v : List Byte) : (s.writeBytes b i v).hostQueue = s.hostQueue := rfl
@[simp] theorem State.writeBytes_turns (b : Buffer) (i : Nat) (v : List Byte) : (s.writeBytes b i v).turns = s.turns := rfl
@[simp] theorem State.writeBytes_readLog (b : Buffer) (i : Nat) (v : List Byte) : (s.writeBytes b i v).readLog = s.readLog := rfl
@[simp] theorem State.writeBytes_draws (b : Buffer) (i : Nat) (v : List Byte) : (s.writeBytes b i v).draws = s.draws := rfl

/-! ### notify -/

@[simp] theorem State.notify_cfg (sev : Severity) (r : Byte) : (s.notify sev r).cfg = s.cfg := by
 unfold State.notify; split <;> rfl
@[simp] theorem State.notify_cmd (sev : Severity) (r : Byte) : (s.notify sev r).cmd = s.cmd := by
 unfold State.notify; split <;> rfl
@[simp] theorem State.notify_trunc (sev : Severity) (r : Byte) : (s.notify sev r).trunc = s.trunc := by
 unfold State.notify; split <;> rfl
@[simp] theorem State.notify_errCode (sev : Severity) (r : Byte) : (s.notify sev r).errCode = s.errCode := by
 unfold State.notify; split <;> rfl
@[simp] theorem State.notify_flen (sev : Severity) (r : Byte) : (s.notify sev r).flen = s.flen := by
 unfold State.notify; split <;> rfl
@[simp] theorem State.notify_arg0 (sev : Severity) (r : Byte) : (s.notify sev r).arg0 = s.arg0 := by
 unfold State.notify; split <;> rfl
@[simp] theorem State.notify_arg1 (sev : Severity) (r : Byte) : (s.notify sev r).arg1 = s.arg1 := by
 unfold State.notify; split <;> rfl
@[simp] theorem State.notify_result (sev : Severity) (r : Byte) : (s.notify sev r).result = s.result := by
 unfold State.notify; split <;> rfl
@[simp] theorem State.notify_crcr (sev : Severity) (r : Byte) : (s.notify sev r).crcr = s.crcr := by
 unfold State.notify; split <;> rfl
@[simp] theorem State.notify_mem (sev : Severity) (r : Byte) : (s.notify sev r).mem = s.mem := by
 unfold State.notify; split <;> rfl
@[simp] theorem State.notify_pending (sev : Severity) (r : Byte) : (s.notify sev r).pending = s.pending := by
 unfold State.notify; split <;> rfl
@[simp] theorem State.notify_notes (sev : Severity) (r : Byte) : (s.notify sev r).notes = if s.cfg.logEnable then s.notes ++ [{ severity := sev, reason := r }] else s.notes := by
 unfold State.notify; split <;> rfl
@[simp] theorem State.notify_hfault (sev : Severity) (r : Byte) : (s.notify sev r).hfault = s.hfault := by
 unfold State.notify; split <;> rfl
@[simp] theorem State.notify_hostQueue (sev : Severity) (r : Byte) : (s.notify sev r).hostQueue = s.hostQueue := by
 unfold State.notify; split <;> rfl
@[simp] theorem State.notify_turns (sev : Severity) (r : Byte) : (s.notify sev r).turns = s.turns := by
 unfold State.notify; split <;> rfl
@[simp] theorem State.notify_readLog (sev : Severity) (r : Byte) : (s.notify sev r).readLog = s.readLog := by
 unfold State.notify; split <;> rfl
@[simp] theorem State.notify_draws (sev : Severity) (r : Byte) : (s.notify sev r).draws = s.draws := by
 unfold State.notify; split <;> rfl

/-! ### report of a success -/

@[simp] theorem State.report_ok_cfg (t : Bool) : (s.report (.ok t)).cfg = s.cfg := rfl
@[simp] theorem State.report_ok_cmd (t : Bool) : (s.report (.ok t)).cmd = s.cmd := rfl
@[simp] theorem State.report_ok_trunc (t : Bool) : (s.report (.ok t)).trunc = t := rfl
@[simp] theorem State.report_ok_errCode (t : Bool) : (s.report (.ok t)).errCode = 0 := rfl
@[simp] theorem State.report_ok_flen (t : Bool) : (s.report (.ok t)).flen = s.flen := rfl
@[simp] theorem State.report_ok_arg0 (t : Bool) : (s.report (.ok t)).arg0 = s.arg0 := rfl
@[simp] theorem State.report_ok_arg1 (t : Bool) : (s.report (.ok t)).arg1 = s.arg1 := rfl
@[simp] theorem State.report_ok_result (t : Bool) : (s.report (.ok t)).result = s.result := rfl
@[simp] theorem State.report_ok_crcr (t : Bool) : (s.report (.ok t)).crcr = s.crcr := rfl
@[simp] theorem State.report_ok_mem (t : Bool) : (s.report (.ok t)).mem = s.mem := rfl
@[simp] theorem State.report_ok_pending (t : Bool) : (s.report (.ok t)).pending = s.pending := rfl
@[simp] theorem State.report_ok_notes (t : Bool) : (s.report (.ok t)).notes = s.notes := rfl
@[simp] theorem State.report_ok_hfault (t : Bool) : (s.report (.ok t)).hfault = s.hfault := rfl
@[simp] theorem State.report_ok_hostQueue (t : Bool) : (s.report (.ok t)).hostQueue = s.hostQueue := rfl
@[simp] theorem State.report_ok_turns (t : Bool) : (s.report (.ok t)).turns = s.turns := rfl
@[simp] theorem State.report_ok_readLog (t : Bool) : (s.report (.ok t)).readLog = s.readLog := rfl
@[simp] theorem State.report_ok_draws (t : Bool) : (s.report (.ok t)).draws = s.draws := rfl

/-! ### report of a failure -/

@[simp] theorem State.report_err_cfg (c : ErrCode) : (s.report (.err c)).cfg = s.cfg := by
 simp [State.report, State.setOutcome]
@[simp] theorem State.report_err_cmd (c : ErrCode) : (s.report (.err c)).cmd = s.cmd := by
 simp [State.report, State.setOutcome]
@[simp] theorem State.report_err_trunc (c : ErrCode) : (s.report (.err c)).trunc = false := by
 simp [State.report, State.setOutcome]
@[simp] theorem State.report_err_errCode (c : ErrCode) : (s.report (.err c)).errCode = c.code := by
 simp [State.report, State.setOutcome]
@[simp] theorem State.report_err_flen (c : ErrCode) : (s.report (.err c)).flen = s.flen := by
 simp [State.report, State.setOutcome]
@[simp] theorem State.report_err_arg0 (c : ErrCode) : (s.report (.err c)).arg0 = s.arg0 := by
 simp [State.report, State.setOutcome]
@[simp] theorem State.report_err_arg1 (c : ErrCode) : (s.report (.err c)).arg1 = s.arg1 := by
 simp [State.report, State.setOutcome]
@[simp] theorem State.report_err_result (c : ErrCode) : (s.report (.err c)).result = s.result := by
 simp [State.report, State.setOutcome]
@[simp] theorem State.report_err_crcr (c : ErrCode) : (s.report (.err c)).crcr = s.crcr := by
 simp [State.report, State.setOutcome]
@[simp] theorem State.report_err_mem (c : ErrCode) : (s.report (.err c)).mem = s.mem := by
 simp [State.report, State.setOutcome]
@[simp] theorem State.report_err_pending (c : ErrCode) : (s.report (.err c)).pending = s.pending := by
 simp [State.report, State.setOutcome]
@[simp] theorem State.report_err_notes (c : ErrCode) : (s.report (.err c)).notes = if s.cfg.logEnable then s.notes ++ [{ severity := .error, reason := c.code }] else s.notes := by
 simp [State.report, State.setOutcome]
@[simp] theorem State.report_err_hfault (c : ErrCode) : (s.report (.err c)).hfault = s.hfault := by
 simp [State.report, State.setOutcome]
@[simp] theorem State.report_err_hostQueue (c : ErrCode) : (s.report (.err c)).hostQueue = s.hostQueue := by
 simp [State.report, State.setOutcome]
@[simp] theorem State.report_err_turns (c : ErrCode) : (s.report (.err c)).turns = s.turns := by
 simp [State.report, State.setOutcome]
@[simp] theorem State.report_err_readLog (c : ErrCode) : (s.report (.err c)).readLog = s.readLog := by
 simp [State.report, State.setOutcome]
@[simp] theorem State.report_err_draws (c : ErrCode) : (s.report (.err c)).draws = s.draws := by
 simp [State.report, State.setOutcome]

/-! ### complete of a success -/

@[simp] theorem State.complete_ok_cfg (t : Bool) : (State.complete (.ok t, s)).cfg = s.cfg := rfl
@[simp] theorem State.complete_ok_cmd (t : Bool) : (State.complete (.ok t, s)).cmd = s.cmd := rfl
@[simp] theorem State.complete_ok_trunc (t : Bool) : (State.complete (.ok t, s)).trunc = t := rfl
@[simp] theorem State.complete_ok_errCode (t : Bool) : (State.complete (.ok t, s)).errCode = 0 := rfl
@[simp] theorem State.complete_ok_flen (t : Bool) : (State.complete (.ok t, s)).flen = s.flen := rfl
@[simp] theorem State.complete_ok_arg0 (t : Bool) : (State.complete (.ok t, s)).arg0 = s.arg0 := rfl
@[simp] theorem State.complete_ok_arg1 (t : Bool) : (State.complete (.ok t, s)).arg1 = s.arg1 := rfl
@[simp] theorem State.complete_ok_result (t : Bool) : (State.complete (.ok t, s)).result = s.result := rfl
@[simp] theorem State.complete_ok_crcr (t : Bool) : (State.complete (.ok t, s)).crcr = s.crcr := rfl
@[simp] theorem State.complete_ok_mem (t : Bool) : (State.complete (.ok t, s)).mem = s.mem := rfl
@[simp] theorem State.complete_ok_pending (t : Bool) : (State.complete (.ok t, s)).pending = none := rfl
@[simp] theorem State.complete_ok_notes (t : Bool) : (State.complete (.ok t, s)).notes = s.notes := rfl
@[simp] theorem State.complete_ok_hfault (t : Bool) : (State.complete (.ok t, s)).hfault = s.hfault := rfl
@[simp] theorem State.complete_ok_hostQueue (t : Bool) : (State.complete (.ok t, s)).hostQueue = s.hostQueue := rfl
@[simp] theorem State.complete_ok_turns (t : Bool) : (State.complete (.ok t, s)).turns = s.turns := rfl
@[simp] theorem State.complete_ok_readLog (t : Bool) : (State.complete (.ok t, s)).readLog = s.readLog := rfl
@[simp] theorem State.complete_ok_draws (t : Bool) : (State.complete (.ok t, s)).draws = s.draws := rfl

/-! ### complete of a failure -/

@[simp] theorem State.complete_err_cfg (c : ErrCode) : (State.complete (.err c, s)).cfg = s.cfg := by
 simp [State.complete]
@[simp] theorem State.complete_err_cmd (c : ErrCode) : (State.complete (.err c, s)).cmd = s.cmd := by
 simp [State.complete]
@[simp] theorem State.complete_err_trunc (c : ErrCode) : (State.complete (.err c, s)).trunc = false := by
 simp [State.complete]
@[simp] theorem State.complete_err_errCode (c : ErrCode) : (State.complete (.err c, s)).errCode = c.code := by
 simp [State.complete]
@[simp] theorem State.complete_err_flen (c : ErrCode) : (State.complete (.err c, s)).flen = s.flen := by
 simp [State.complete]
@[simp] theorem State.complete_err_arg0 (c : ErrCode) : (State.complete (.err c, s)).arg0 = s.arg0 := by
 simp [State.complete]
@[simp] theorem State.complete_err_arg1 (c : ErrCode) : (State.complete (.err c, s)).arg1 = s.arg1 := by
 simp [State.complete]
@[simp] theorem State.complete_err_result (c : ErrCode) : (State.complete (.err c, s)).result = s.result := by
 simp [State.complete]
@[simp] theorem State.complete_err_crcr (c : ErrCode) : (State.complete (.err c, s)).crcr = s.crcr := by
 simp [State.complete]
@[simp] theorem State.complete_err_mem (c : ErrCode) : (State.complete (.err c, s)).mem = s.mem := by
 simp [State.complete]
@[simp] theorem State.complete_err_pending (c : ErrCode) : (State.complete (.err c, s)).pending = none := by
 simp [State.complete]
@[simp] theorem State.complete_err_notes (c : ErrCode) : (State.complete (.err c, s)).notes = if s.cfg.logEnable then s.notes ++ [{ severity := .error, reason := c.code }] else s.notes := by
 simp [State.complete]
@[simp] theorem State.complete_err_hfault (c : ErrCode) : (State.complete (.err c, s)).hfault = s.hfault := by
 simp [State.complete]
@[simp] theorem State.complete_err_hostQueue (c : ErrCode) : (State.complete (.err c, s)).hostQueue = s.hostQueue := by
 simp [State.complete]
@[simp] theorem State.complete_err_turns (c : ErrCode) : (State.complete (.err c, s)).turns = s.turns := by
 simp [State.complete]
@[simp] theorem State.complete_err_readLog (c : ErrCode) : (State.complete (.err c, s)).readLog = s.readLog := by
 simp [State.complete]
@[simp] theorem State.complete_err_draws (c : ErrCode) : (State.complete (.err c, s)).draws = s.draws := by
 simp [State.complete]

/-! ### raiseHostFault -/

@[simp] theorem State.raiseHostFault_cfg (r : HostFaultReason) (o : Nat) (w : Width) (b : Bool) : (s.raiseHostFault r o w b).cfg = s.cfg := by
 unfold State.raiseHostFault; split <;> rfl
@[simp] theorem State.raiseHostFault_cmd (r : HostFaultReason) (o : Nat) (w : Width) (b : Bool) : (s.raiseHostFault r o w b).cmd = s.cmd := by
 unfold State.raiseHostFault; split <;> rfl
@[simp] theorem State.raiseHostFault_trunc (r : HostFaultReason) (o : Nat) (w : Width) (b : Bool) : (s.raiseHostFault r o w b).trunc = s.trunc := by
 unfold State.raiseHostFault; split <;> rfl
@[simp] theorem State.raiseHostFault_errCode (r : HostFaultReason) (o : Nat) (w : Width) (b : Bool) : (s.raiseHostFault r o w b).errCode = s.errCode := by
 unfold State.raiseHostFault; split <;> rfl
@[simp] theorem State.raiseHostFault_flen (r : HostFaultReason) (o : Nat) (w : Width) (b : Bool) : (s.raiseHostFault r o w b).flen = s.flen := by
 unfold State.raiseHostFault; split <;> rfl
@[simp] theorem State.raiseHostFault_arg0 (r : HostFaultReason) (o : Nat) (w : Width) (b : Bool) : (s.raiseHostFault r o w b).arg0 = s.arg0 := by
 unfold State.raiseHostFault; split <;> rfl
@[simp] theorem State.raiseHostFault_arg1 (r : HostFaultReason) (o : Nat) (w : Width) (b : Bool) : (s.raiseHostFault r o w b).arg1 = s.arg1 := by
 unfold State.raiseHostFault; split <;> rfl
@[simp] theorem State.raiseHostFault_result (r : HostFaultReason) (o : Nat) (w : Width) (b : Bool) : (s.raiseHostFault r o w b).result = s.result := by
 unfold State.raiseHostFault; split <;> rfl
@[simp] theorem State.raiseHostFault_crcr (r : HostFaultReason) (o : Nat) (w : Width) (b : Bool) : (s.raiseHostFault r o w b).crcr = s.crcr := by
 unfold State.raiseHostFault; split <;> rfl
@[simp] theorem State.raiseHostFault_mem (r : HostFaultReason) (o : Nat) (w : Width) (b : Bool) : (s.raiseHostFault r o w b).mem = s.mem := by
 unfold State.raiseHostFault; split <;> rfl
@[simp] theorem State.raiseHostFault_pending (r : HostFaultReason) (o : Nat) (w : Width) (b : Bool) : (s.raiseHostFault r o w b).pending = s.pending := by
 unfold State.raiseHostFault; split <;> rfl
@[simp] theorem State.raiseHostFault_notes (r : HostFaultReason) (o : Nat) (w : Width) (b : Bool) : (s.raiseHostFault r o w b).notes = s.notes := by
 unfold State.raiseHostFault; split <;> rfl
@[simp] theorem State.raiseHostFault_hfault (r : HostFaultReason) (o : Nat) (w : Width) (b : Bool) : (s.raiseHostFault r o w b).hfault = if ({ reason := r, offset := o, width := w, isWrite := b } : HostFaultRecord) ∈ s.hfault then s.hfault else s.hfault ++ [{ reason := r, offset := o, width := w, isWrite := b }] := by
 unfold State.raiseHostFault; split <;> rfl
@[simp] theorem State.raiseHostFault_hostQueue (r : HostFaultReason) (o : Nat) (w : Width) (b : Bool) : (s.raiseHostFault r o w b).hostQueue = s.hostQueue := by
 unfold State.raiseHostFault; split <;> rfl
@[simp] theorem State.raiseHostFault_turns (r : HostFaultReason) (o : Nat) (w : Width) (b : Bool) : (s.raiseHostFault r o w b).turns = s.turns := by
 unfold State.raiseHostFault; split <;> rfl
@[simp] theorem State.raiseHostFault_readLog (r : HostFaultReason) (o : Nat) (w : Width) (b : Bool) : (s.raiseHostFault r o w b).readLog = s.readLog := by
 unfold State.raiseHostFault; split <;> rfl
@[simp] theorem State.raiseHostFault_draws (r : HostFaultReason) (o : Nat) (w : Width) (b : Bool) : (s.raiseHostFault r o w b).draws = s.draws := by
 unfold State.raiseHostFault; split <;> rfl

/-! ### issue -/

@[simp] theorem State.issue_cfg (w : Word) : (s.issue w).cfg = s.cfg := rfl
@[simp] theorem State.issue_cmd (w : Word) : (s.issue w).cmd = w := rfl
@[simp] theorem State.issue_trunc (w : Word) : (s.issue w).trunc = s.trunc := rfl
@[simp] theorem State.issue_errCode (w : Word) : (s.issue w).errCode = s.errCode := rfl
@[simp] theorem State.issue_flen (w : Word) : (s.issue w).flen = s.flen := rfl
@[simp] theorem State.issue_arg0 (w : Word) : (s.issue w).arg0 = s.arg0 := rfl
@[simp] theorem State.issue_arg1 (w : Word) : (s.issue w).arg1 = s.arg1 := rfl
@[simp] theorem State.issue_result (w : Word) : (s.issue w).result = s.result := rfl
@[simp] theorem State.issue_crcr (w : Word) : (s.issue w).crcr = s.crcr := rfl
@[simp] theorem State.issue_mem (w : Word) : (s.issue w).mem = s.mem := rfl
@[simp] theorem State.issue_pending (w : Word) : (s.issue w).pending = some w := rfl
@[simp] theorem State.issue_notes (w : Word) : (s.issue w).notes = s.notes := rfl
@[simp] theorem State.issue_hfault (w : Word) : (s.issue w).hfault = s.hfault := rfl
@[simp] theorem State.issue_hostQueue (w : Word) : (s.issue w).hostQueue = s.hostQueue := rfl
@[simp] theorem State.issue_turns (w : Word) : (s.issue w).turns = s.turns := rfl
@[simp] theorem State.issue_readLog (w : Word) : (s.issue w).readLog = s.readLog := rfl
@[simp] theorem State.issue_draws (w : Word) : (s.issue w).draws = s.draws := rfl

/-! ### logRead -/

@[simp] theorem State.logRead_cfg (o : Nat) (w : Width) (v : Word) : (s.logRead o w v).cfg = s.cfg := rfl
@[simp] theorem State.logRead_cmd (o : Nat) (w : Width) (v : Word) : (s.logRead o w v).cmd = s.cmd := rfl
@[simp] theorem State.logRead_trunc (o : Nat) (w : Width) (v : Word) : (s.logRead o w v).trunc = s.trunc := rfl
@[simp] theorem State.logRead_errCode (o : Nat) (w : Width) (v : Word) : (s.logRead o w v).errCode = s.errCode := rfl
@[simp] theorem State.logRead_flen (o : Nat) (w : Width) (v : Word) : (s.logRead o w v).flen = s.flen := rfl
@[simp] theorem State.logRead_arg0 (o : Nat) (w : Width) (v : Word) : (s.logRead o w v).arg0 = s.arg0 := rfl
@[simp] theorem State.logRead_arg1 (o : Nat) (w : Width) (v : Word) : (s.logRead o w v).arg1 = s.arg1 := rfl
@[simp] theorem State.logRead_result (o : Nat) (w : Width) (v : Word) : (s.logRead o w v).result = s.result := rfl
@[simp] theorem State.logRead_crcr (o : Nat) (w : Width) (v : Word) : (s.logRead o w v).crcr = s.crcr := rfl
@[simp] theorem State.logRead_mem (o : Nat) (w : Width) (v : Word) : (s.logRead o w v).mem = s.mem := rfl
@[simp] theorem State.logRead_pending (o : Nat) (w : Width) (v : Word) : (s.logRead o w v).pending = s.pending := rfl
@[simp] theorem State.logRead_notes (o : Nat) (w : Width) (v : Word) : (s.logRead o w v).notes = s.notes := rfl
@[simp] theorem State.logRead_hfault (o : Nat) (w : Width) (v : Word) : (s.logRead o w v).hfault = s.hfault := rfl
@[simp] theorem State.logRead_hostQueue (o : Nat) (w : Width) (v : Word) : (s.logRead o w v).hostQueue = s.hostQueue := rfl
@[simp] theorem State.logRead_turns (o : Nat) (w : Width) (v : Word) : (s.logRead o w v).turns = s.turns := rfl
@[simp] theorem State.logRead_readLog (o : Nat) (w : Width) (v : Word) : (s.logRead o w v).readLog = s.readLog ++ [{ offset := o, width := w, value := v }] := rfl
@[simp] theorem State.logRead_draws (o : Nat) (w : Width) (v : Word) : (s.logRead o w v).draws = s.draws + 1 := rfl

/-! ### useTurn -/

@[simp] theorem State.useTurn_cfg : (s.useTurn).cfg = s.cfg := rfl
@[simp] theorem State.useTurn_cmd : (s.useTurn).cmd = s.cmd := rfl
@[simp] theorem State.useTurn_trunc : (s.useTurn).trunc = s.trunc := rfl
@[simp] theorem State.useTurn_errCode : (s.useTurn).errCode = s.errCode := rfl
@[simp] theorem State.useTurn_flen : (s.useTurn).flen = s.flen := rfl
@[simp] theorem State.useTurn_arg0 : (s.useTurn).arg0 = s.arg0 := rfl
@[simp] theorem State.useTurn_arg1 : (s.useTurn).arg1 = s.arg1 := rfl
@[simp] theorem State.useTurn_result : (s.useTurn).result = s.result := rfl
@[simp] theorem State.useTurn_crcr : (s.useTurn).crcr = s.crcr := rfl
@[simp] theorem State.useTurn_mem : (s.useTurn).mem = s.mem := rfl
@[simp] theorem State.useTurn_pending : (s.useTurn).pending = s.pending := rfl
@[simp] theorem State.useTurn_notes : (s.useTurn).notes = s.notes := rfl
@[simp] theorem State.useTurn_hfault : (s.useTurn).hfault = s.hfault := rfl
@[simp] theorem State.useTurn_hostQueue : (s.useTurn).hostQueue = s.hostQueue := rfl
@[simp] theorem State.useTurn_turns : (s.useTurn).turns = s.turns.tail := rfl
@[simp] theorem State.useTurn_readLog : (s.useTurn).readLog = s.readLog := rfl
@[simp] theorem State.useTurn_draws : (s.useTurn).draws = s.draws := rfl

/-! ### assertReset -/

@[simp] theorem State.assertReset_cfg : (s.assertReset).cfg = s.cfg := rfl
@[simp] theorem State.assertReset_cmd : (s.assertReset).cmd = 0 := rfl
@[simp] theorem State.assertReset_trunc : (s.assertReset).trunc = false := rfl
@[simp] theorem State.assertReset_errCode : (s.assertReset).errCode = 0 := rfl
@[simp] theorem State.assertReset_flen : (s.assertReset).flen = 0 := rfl
@[simp] theorem State.assertReset_arg0 : (s.assertReset).arg0 = 0 := rfl
@[simp] theorem State.assertReset_arg1 : (s.assertReset).arg1 = 0 := rfl
@[simp] theorem State.assertReset_result : (s.assertReset).result = 0 := rfl
@[simp] theorem State.assertReset_crcr : (s.assertReset).crcr = 0 := rfl
@[simp] theorem State.assertReset_mem : (s.assertReset).mem = [] := rfl
@[simp] theorem State.assertReset_pending : (s.assertReset).pending = none := rfl
@[simp] theorem State.assertReset_notes : (s.assertReset).notes = s.notes := rfl
@[simp] theorem State.assertReset_hfault : (s.assertReset).hfault = s.hfault := rfl
@[simp] theorem State.assertReset_hostQueue : (s.assertReset).hostQueue = s.hostQueue := rfl
@[simp] theorem State.assertReset_turns : (s.assertReset).turns = s.turns := rfl
@[simp] theorem State.assertReset_readLog : (s.assertReset).readLog = s.readLog := rfl
@[simp] theorem State.assertReset_draws : (s.assertReset).draws = s.draws := rfl

end Sys2Proof.Machine
end

