-- ==== Sys2Proof/Laws/Memory.lean ====
section
/-! SUPPORT. What the memory operations do: read after write, the canonical form, and the buffer reads and writes built on them. -/

namespace Sys2Proof.Machine

@[simp] theorem Memory.byteAt_nil (o : Nat) : Memory.byteAt [] o = none := rfl

theorem Memory.byteAt_set (m : Memory) (o : Nat) (v : Byte) (q : Nat) :
    (Memory.set m o v).byteAt q = if q = o then some v else m.byteAt q := by
  induction m with
  | nil => simp only [Memory.set, Memory.byteAt, eq_comm]
  | cons c m ih =>
    obtain ⟨a, b⟩ := c
    by_cases hq : q = o
    · subst hq
      simp only [Memory.set, if_pos]
      split
      · simp [Memory.byteAt]
      · split
        · simp [Memory.byteAt]
        · next h => simp only [Memory.byteAt, ih, if_neg (Ne.symm h), if_pos]
    · have hq' : ¬ o = q := Ne.symm hq
      simp only [Memory.set, if_neg hq] at ih ⊢
      split
      · simp only [Memory.byteAt, if_neg hq']
      · split
        · next h => subst h; simp only [Memory.byteAt, if_neg hq']
        · simp only [Memory.byteAt, ih]

/-- A byte after a range is stored: the range's byte inside it, the old one outside. -/
theorem Memory.byteAt_setRange (m : Memory) (o : Nat) (bs : List Byte) (a : Nat) :
    (Memory.setRange m o bs).byteAt a = if o ≤ a ∧ a < o + bs.length then bs[a - o]? else m.byteAt a := by
  induction bs generalizing m o with
  | nil =>
    have : ¬ (o ≤ a ∧ a < o + ([] : List Byte).length) := by simp
    simp only [Memory.setRange, if_neg this]
  | cons b bs ih =>
    simp only [Memory.setRange, ih, Memory.byteAt_set, List.length_cons]
    by_cases h1 : o + 1 ≤ a ∧ a < o + 1 + bs.length
    · have h2 : o ≤ a ∧ a < o + (bs.length + 1) := by omega
      have h3 : a - o = (a - (o + 1)) + 1 := by omega
      rw [if_pos h1, if_pos h2, h3, List.getElem?_cons_succ]
    · rw [if_neg h1]
      by_cases h4 : a = o
      · subst h4; simp
      · have h2 : ¬ (o ≤ a ∧ a < o + (bs.length + 1)) := by omega
        rw [if_neg h4, if_neg h2]

theorem Memory.byteAt_setRange_inside (m : Memory) (o : Nat) (bs : List Byte) (j : Nat) (h : j < bs.length) :
    (Memory.setRange m o bs).byteAt (o + j) = some bs[j] := by
  rw [Memory.byteAt_setRange, if_pos (by omega)]
  simp [h]

theorem Memory.byteAt_setRange_outside (m : Memory) (o : Nat) (bs : List Byte) (a : Nat)
    (h : a < o ∨ o + bs.length ≤ a) : (Memory.setRange m o bs).byteAt a = m.byteAt a := by
  rw [Memory.byteAt_setRange, if_neg (by omega)]

theorem Memory.keys_set (m : Memory) (o : Nat) (v : Byte) (k : Nat) :
    k ∈ (Memory.set m o v).map Prod.fst ↔ k = o ∨ k ∈ m.map Prod.fst := by
  induction m with
  | nil => simp [Memory.set]
  | cons c m ih =>
    obtain ⟨a, b⟩ := c
    simp only [Memory.set]
    split
    · simp
    · split
      · next h => simp [h]
      · simp only [List.map_cons, List.mem_cons, ih]
        tauto

/-- Storing a byte keeps the canonical form. -/
theorem Memory.set_wf (m : Memory) (o : Nat) (v : Byte) (h : m.wf) : (Memory.set m o v).wf := by
  induction m with
  | nil => simp [Memory.set, Memory.wf]
  | cons c m ih =>
    obtain ⟨a, b⟩ := c
    simp only [Memory.wf, List.map_cons, List.pairwise_cons] at h ⊢
    simp only [Memory.set]
    split
    · next h1 =>
      simp only [List.map_cons, List.pairwise_cons, List.mem_cons]
      refine ⟨?_, h.1, h.2⟩
      rintro x (rfl | hx)
      · exact h1
      · exact lt_trans h1 (h.1 x hx)
    · split
      · next h1 => subst h1; simpa using h
      · next h1 h2 =>
        simp only [List.map_cons, List.pairwise_cons]
        refine ⟨?_, ih h.2⟩
        intro x hx
        rcases (Memory.keys_set m o v x).1 hx with rfl | hx
        · omega
        · exact h.1 x hx

/-- Storing bytes keeps the canonical form. -/
theorem Memory.setRange_wf (m : Memory) (o : Nat) (bs : List Byte) (h : m.wf) : (Memory.setRange m o bs).wf := by
  induction bs generalizing m o with
  | nil => exact h
  | cons b bs ih => exact ih _ _ (Memory.set_wf m o b h)

theorem Memory.byteAt_eq_none_of_lt (m : Memory) (o : Nat) (h : ∀ k ∈ m.map Prod.fst, o < k) : m.byteAt o = none := by
  induction m with
  | nil => rfl
  | cons c m ih =>
    obtain ⟨a, b⟩ := c
    simp only [List.map_cons, List.mem_cons, forall_eq_or_imp] at h
    simp only [Memory.byteAt]
    rw [if_neg (by omega), ih h.2]

/-- Equal memories are equal data: two canonical lists that read alike are the same list. -/
theorem Memory.ext_of_wf (m m' : Memory) (h : m.wf) (h' : m'.wf) (e : ∀ o, m.byteAt o = m'.byteAt o) : m = m' := by
  induction m generalizing m' with
  | nil =>
    cases m' with
    | nil => rfl
    | cons c m' => have := e c.1; simp [Memory.byteAt] at this
  | cons c m ih =>
    obtain ⟨a, b⟩ := c
    cases m' with
    | nil => have := e a; simp [Memory.byteAt] at this
    | cons c' m' =>
      obtain ⟨a', b'⟩ := c'
      simp only [Memory.wf, List.map_cons, List.pairwise_cons] at h h'
      have ha : a = a' := by
        rcases lt_trichotomy a a' with hl | he | hl
        · have := e a
          rw [Memory.byteAt, if_pos rfl, Memory.byteAt_eq_none_of_lt] at this
          · simp at this
          · intro k hk
            rcases List.mem_cons.1 hk with rfl | hk
            · exact hl
            · exact lt_trans hl (h'.1 k hk)
        · exact he
        · have := e a'
          rw [Memory.byteAt_eq_none_of_lt, Memory.byteAt, if_pos rfl] at this
          · simp at this
          · intro k hk
            rcases List.mem_cons.1 hk with rfl | hk
            · exact hl
            · exact lt_trans hl (h.1 k hk)
      subst ha
      have hb : b = b' := by simpa [Memory.byteAt] using e a
      subst hb
      congr 1
      refine ih m' h.2 h'.2 fun o => ?_
      by_cases ho : a = o
      · subst ho
        rw [Memory.byteAt_eq_none_of_lt m a h.1, Memory.byteAt_eq_none_of_lt m' a h'.1]
      · simpa [Memory.byteAt, ho] using e o

/-! ### Buffer reads -/

@[simp] theorem State.readBytes_length (s : State) (t : Nat) (b : Buffer) (i n : Nat) :
    (s.readBytes t b i n).length = n := by simp [State.readBytes]

theorem State.readBytes_getElem (s : State) (t : Nat) (b : Buffer) (i n j : Nat) (h : j < (s.readBytes t b i n).length) :
    (s.readBytes t b i n)[j] = s.readByte t b (i + j) := by simp [State.readBytes]

theorem State.readByte_of_written (s : State) (t : Nat) (b : Buffer) (i : Nat) (v : Byte)
    (h : s.mem.byteAt (b.window + i) = some v) : s.readByte t b i = v := by simp [State.readByte, h]

/-- What a read gives is one of the results the spec allows. -/
theorem State.readBytes_yields (s : State) (t : Nat) (b : Buffer) (i n : Nat) :
    s.Yields b i (s.readBytes t b i n) := by
  intro j h v hv
  rw [State.readBytes_getElem]
  exact s.readByte_of_written t b (i + j) v (by rw [← hv, Nat.add_assoc])

/-- Where the bytes have been written, a read gives them, whatever the draw. -/
theorem State.readBytes_of_holds (s : State) (t : Nat) (b : Buffer) (i : Nat) (bs : List Byte) (h : s.Holds b i bs) :
    s.readBytes t b i bs.length = bs := by
  apply List.ext_getElem
  · simp
  · intro j h1 h2
    rw [State.readBytes_getElem]
    exact s.readByte_of_written t b (i + j) _ (by rw [← h j h2, Nat.add_assoc])

theorem State.readByte_of_holds (s : State) (t : Nat) (b : Buffer) (i : Nat) (bs : List Byte) (h : s.Holds b i bs)
    (j : Nat) (hj : j < bs.length) : s.readByte t b (i + j) = bs[j] :=
  s.readByte_of_written t b (i + j) _ (by rw [← h j hj, Nat.add_assoc])

/-- Reads depend on the bytes of the buffer alone. -/
theorem State.readByte_congr (s s' : State) (t : Nat) (b : Buffer) (i : Nat)
    (h : s.mem.byteAt (b.window + i) = s'.mem.byteAt (b.window + i)) : s.readByte t b i = s'.readByte t b i := by
  simp [State.readByte, h]

theorem State.readBytes_congr (s s' : State) (t : Nat) (b : Buffer) (i n : Nat) (h : s.mem = s'.mem) :
    s.readBytes t b i n = s'.readBytes t b i n := by simp [State.readBytes, State.readByte, h]

theorem State.rd16le_congr (s s' : State) (t : Nat) (b : Buffer) (i : Nat) (h : s.mem = s'.mem) :
    s.rd16le t b i = s'.rd16le t b i := by simp [State.rd16le, State.readByte, h]

theorem State.rd32le_congr (s s' : State) (t : Nat) (b : Buffer) (i : Nat) (h : s.mem = s'.mem) :
    s.rd32le t b i = s'.rd32le t b i := by simp [State.rd32le, State.readByte, h]

theorem State.tvTag_congr (s s' : State) (t : Nat) (h : s.mem = s'.mem) : s.tvTag t = s'.tvTag t :=
  s.rd16le_congr s' t .rbuf 16 h

/-! ### Buffer writes -/

/-- After a write the buffer holds what was written. -/
theorem State.writeBytes_holds (s : State) (b : Buffer) (i : Nat) (v : List Byte) : (s.writeBytes b i v).Holds b i v := by
  intro j h
  rw [State.writeBytes_mem]
  exact Memory.byteAt_setRange_inside _ _ _ _ h

theorem State.holds_of_setRange (s : State) (m : Memory) (b : Buffer) (i : Nat) (v : List Byte) (h : s.mem = Memory.setRange m (b.window + i) v) :
    s.Holds b i v := by
  intro j hj
  rw [h]
  exact Memory.byteAt_setRange_inside _ _ _ _ hj

end Sys2Proof.Machine
end

