-- ==== Sys2Proof/Laws/Exec.lean ====
section
/-! SUPPORT. What completing a command does, and what each command's rule leaves: the lemmas a proof cites instead of unfolding a
meaning. -/

namespace Sys2Proof.Machine

@[simp] theorem State.finish_eq (r : CmdOutcome × State) : State.finish r = .next (State.complete r) := rfl

/-- A failing command leaves what R116 and R117 say of its rule's state. -/
theorem State.complete_err (s : State) (c : ErrCode) : State.complete (.err c, s) = s.failed c.code s.draws := by
  ext1 <;> simp [State.failed]
  split <;> simp

/-- `Ok(false)` leaves what R117 says of its rule's state. -/
theorem State.complete_ok (s : State) : State.complete (.ok false, s) = s.succeeded s.draws := by
  ext1 <;> simp [State.succeeded]

/-- Everything a command can be: one of the six shared rules, completed. Every command goes on. -/
theorem exec_cases (i : Instr) (s : State) :
    (∃ k, i = serInstr k ∧ exec i s = .next (State.complete (s.ser k))) ∨
    (∃ k, i = desInstr k ∧ exec i s = .next (State.complete (s.des k))) ∨
    (i = .crc ∧ exec i s = .next (State.complete s.crcCommand)) ∨
    (i ∈ [Instr.tvclr, .tvpi32, .tvpu16, .tvpf32, .tvptxt true] ∧
      ∃ content tag, content.length ≤ 4 ∧ (∀ s' : State, s'.arg0 = s.arg0 →
        exec i s' = .next (State.complete (s'.pack content tag)))) ∨
    (i = .tvptxt false ∧ exec i s = .next (State.complete s.packText)) ∨
    (i ∈ [Instr.tvgtag, .tvui32, .tvuu16, .tvuf32, .tvutxt] ∧
      ∃ n v, (∀ s' : State, s'.mem = s.mem → s'.draws = s.draws →
        exec i s' = .next (State.complete (s'.answer n v)))) := by
  cases i with
  | serCmd => exact .inl ⟨.command, rfl, rfl⟩
  | serDsc => exact .inl ⟨.discovery, rfl, rfl⟩
  | serTel => exact .inl ⟨.telemetry, rfl, rfl⟩
  | serSet => exact .inl ⟨.settings, rfl, rfl⟩
  | serTv => exact .inl ⟨.taggedValue, rfl, rfl⟩
  | desCmd => exact .inr (.inl ⟨.command, rfl, rfl⟩)
  | desDsc => exact .inr (.inl ⟨.discovery, rfl, rfl⟩)
  | desTel => exact .inr (.inl ⟨.telemetry, rfl, rfl⟩)
  | desSet => exact .inr (.inl ⟨.settings, rfl, rfl⟩)
  | desTv => exact .inr (.inl ⟨.taggedValue, rfl, rfl⟩)
  | crc => exact .inr (.inr (.inl ⟨rfl, rfl⟩))
  | tvclr => exact .inr (.inr (.inr (.inl ⟨by simp, [], tagEmpty, by simp, fun s' _ => rfl⟩)))
  | tvpi32 =>
    refine .inr (.inr (.inr (.inl ⟨by simp, le32 s.arg0, tagInt32, by simp [le32], fun s' h => ?_⟩)))
    rw [← h]; rfl
  | tvpu16 =>
    refine .inr (.inr (.inr (.inl ⟨by simp, le16 (s.arg0.extractLsb' 0 16), tagUInt16, by simp [le16], fun s' h => ?_⟩)))
    rw [← h]; rfl
  | tvpf32 =>
    refine .inr (.inr (.inr (.inl ⟨by simp, le32 s.arg0, tagFloat32, by simp [le32], fun s' h => ?_⟩)))
    rw [← h]; rfl
  | tvptxt n =>
    cases n with
    | true => exact .inr (.inr (.inr (.inl ⟨by simp, [], tagEmpty, by simp, fun s' _ => rfl⟩)))
    | false => exact .inr (.inr (.inr (.inr (.inl ⟨rfl, rfl⟩))))
  | tvgtag =>
    refine .inr (.inr (.inr (.inr (.inr ⟨by simp, 1, (s.tvTag s.draws).zeroExtend 32, fun s' h d => ?_⟩))))
    simp only [exec, execTvgtag, State.finish_eq, State.tvTag_congr s' s _ h, d]
  | tvui32 =>
    refine .inr (.inr (.inr (.inr (.inr ⟨by simp, 2, if s.tvTag s.draws = tagInt32 then s.rd32le (s.draws + 1) .rbuf 0 else 0, fun s' h d => ?_⟩))))
    simp only [exec, execTvui32, State.finish_eq, State.tvTag_congr s' s _ h, State.rd32le_congr s' s _ _ _ h, d]
  | tvuu16 =>
    refine .inr (.inr (.inr (.inr (.inr ⟨by simp, 2, if s.tvTag s.draws = tagUInt16 then (s.rd16le (s.draws + 1) .rbuf 0).zeroExtend 32 else 0, fun s' h d => ?_⟩))))
    simp only [exec, execTvuu16, State.finish_eq, State.tvTag_congr s' s _ h, State.rd16le_congr s' s _ _ _ h, d]
  | tvuf32 =>
    refine .inr (.inr (.inr (.inr (.inr ⟨by simp, 2, if s.tvTag s.draws = tagFloat32 then s.rd32le (s.draws + 1) .rbuf 0 else 0, fun s' h d => ?_⟩))))
    simp only [exec, execTvuf32, State.finish_eq, State.tvTag_congr s' s _ h, State.rd32le_congr s' s _ _ _ h, d]
  | tvutxt =>
    refine .inr (.inr (.inr (.inr (.inr ⟨by simp, 1, BitVec.ofNat 32 (textLength (s.readBytes s.draws .rbuf 0 16)), fun s' h d => ?_⟩))))
    simp only [exec, execTvutxt, State.finish_eq, State.readBytes_congr s' s _ _ _ _ h, d]

theorem exec_ser (k : Kind) (s : State) : exec (serInstr k) s = .next (State.complete (s.ser k)) := by cases k <;> rfl

theorem exec_des (k : Kind) (s : State) : exec (desInstr k) s = .next (State.complete (s.des k)) := by cases k <;> rfl

/-! ### Frames -/

theorem zeroUnusedSlots_length (p : List Byte) : (zeroUnusedSlots p).length = p.length := by
  simp only [zeroUnusedSlots, List.length_append, List.length_take, List.length_replicate]
  omega

@[simp] theorem framePayload_length (k : Kind) (p : List Byte) : (framePayload k p).length = p.length := by
  cases k <;> simp [framePayload, zeroUnusedSlots_length]

/-- The zeroing of R93, byte by byte. -/
theorem zeroUnusedSlots_getElem (p : List Byte) (j : Nat) (h : j < (zeroUnusedSlots p).length)
    (h' : j < p.length) : (zeroUnusedSlots p)[j] = if 1 + 7 * (p.headD 0).toNat ≤ j then 0 else p[j] := by
  simp only [zeroUnusedSlots]
  split
  · next hj =>
    rw [List.getElem_append_right]
    · simp
    · rw [List.length_take]; omega
  · next hj =>
    rw [List.getElem_append_left]
    · simp
    · rw [List.length_take]; omega

@[simp] theorem frameBody_length (c : Config) (k : Kind) (p : List Byte) : (frameBody c k p).length = 2 + p.length := by
  simp [frameBody]; omega

@[simp] theorem frameBytes_length (c : Config) (k : Kind) (p : List Byte) :
    (frameBytes c k p).length = 4 + p.length := by
  simp [frameBytes, le16]; omega

/-! ### What each rule leaves -/

/-- SER(K) of a kind too large for the build (R91). -/
theorem State.ser_oversized (k : Kind) (s : State) (h : s.cfg.maxPayloadSize < kindSize s.cfg k) :
    s.ser k = (.err .oversizedPayload, { s with flen := 0 }) := by simp [State.ser, h]

/-- SER(K) of a kind that fits (R91). -/
theorem State.ser_fits (k : Kind) (s : State) (h : kindSize s.cfg k ≤ s.cfg.maxPayloadSize) :
    s.ser k = (.ok false, { (s.useDraws 1).writeBytes .fbuf 0
      (frameBytes s.cfg k (framePayload k (s.readBytes s.draws .rbuf 0 (kindSize s.cfg k)))) with
        flen := BitVec.ofNat 16 (4 + kindSize s.cfg k) }) := by
  rw [State.ser]
  exact if_neg (by omega)

/-- DES(K) fails with a code of R97, or accepts a frame of exactly 4 + SIZE(K) bytes. -/
theorem State.des_cases (k : Kind) (s : State) :
    (∃ c d, c ≠ ErrCode.illegalCommand ∧ c ≠ ErrCode.oversizedPayload ∧ s.des k = (.err c, s.useDraws d)) ∨
    (s.flen.toNat = 4 + kindSize s.cfg k ∧ 4 + kindSize s.cfg k ≤ fbufSize s.cfg ∧
      s.des k = (.ok false, (s.useDraws 5).writeBytes .rbuf 0 (s.readBytes (s.draws + 4) .fbuf 2 (kindSize s.cfg k)))) := by
  unfold State.des
  simp only
  split
  · exact .inl ⟨_, 0, by simp, by simp, rfl⟩
  split
  · exact .inl ⟨_, 0, by simp, by simp, rfl⟩
  split
  · exact .inl ⟨_, 5, by simp, by simp, rfl⟩
  split
  · exact .inl ⟨_, 5, by simp, by simp, rfl⟩
  split
  · exact .inl ⟨_, 5, by simp, by simp, rfl⟩
  split
  · exact .inl ⟨_, 5, by simp, by simp, rfl⟩
  split
  · exact .inl ⟨_, 5, by simp, by simp, rfl⟩
  next h1 _ _ _ h5 h6 _ =>
    simp only [ne_eq, Decidable.not_not] at h5 h6
    exact .inr ⟨by omega, by omega, by rw [h6]⟩

/-- The CRC command's rule (R112). -/
theorem State.crcCommand_cases (s : State) :
    (fbufSize s.cfg < s.arg0.toNat + s.arg1.toNat ∧ s.crcCommand = (.err .rangeInvalid, s)) ∨
    (s.arg0.toNat + s.arg1.toNat ≤ fbufSize s.cfg ∧
      s.crcCommand = (.ok false,
        { s.useDraws 1 with crcr := crc16 (s.readBytes s.draws .fbuf s.arg0.toNat s.arg1.toNat) })) := by
  unfold State.crcCommand
  simp only
  split
  · next h => exact .inl ⟨h, rfl⟩
  · next h => exact .inr ⟨by omega, rfl⟩

theorem tvCell_length (content : List Byte) (tag : Half) (h : content.length ≤ 16) : (tvCell content tag).length = 18 := by
  simp [tvCell, le16]; omega

/-- Everything a command can leave: the inversion that the frame and the invariant are read from. -/
theorem exec_inversion (i : Instr) (s t : State) (h : exec i s = .next t) :
    (∃ k, i = serInstr k ∧
      ((s.cfg.maxPayloadSize < kindSize s.cfg k ∧ t = { s with flen := 0 }.failed 1 s.draws) ∨
       (kindSize s.cfg k ≤ s.cfg.maxPayloadSize ∧ ∃ f, f.length = 4 + kindSize s.cfg k ∧
        t = { s with mem := s.mem.setRange (Buffer.window .fbuf) f
                     flen := BitVec.ofNat 16 (4 + kindSize s.cfg k) }.succeeded (s.draws + 1)))) ∨
    (∃ k, i = desInstr k ∧
      ((∃ c d, c ≠ ErrCode.illegalCommand ∧ c ≠ ErrCode.oversizedPayload ∧ t = s.failed (ErrCode.code c) d) ∨
       (s.flen.toNat = 4 + kindSize s.cfg k ∧ 4 + kindSize s.cfg k ≤ fbufSize s.cfg ∧
        ∃ p d, p.length = kindSize s.cfg k ∧
          t = { s with mem := s.mem.setRange (Buffer.window .rbuf) p }.succeeded d))) ∨
    (i = .crc ∧ (t = s.failed 8 s.draws ∨ ∃ v d, t = { s with crcr := v }.succeeded d)) ∨
    (i ∈ [Instr.tvclr, .tvpi32, .tvpu16, .tvpf32, .tvptxt true] ∧ ∃ cell, cell.length = 18 ∧
      t = { s with mem := s.mem.setRange (Buffer.window .rbuf) cell }.succeeded s.draws) ∨
    (i = .tvptxt false ∧ ∃ cell, cell.length = 18 ∧
      ((15 < s.arg1.toNat ∧ t = { { s with mem := s.mem.setRange (Buffer.window .rbuf) cell }.succeeded (s.draws + 1) with
          trunc := true
          notes := s.notes ++ (if s.cfg.logEnable = true then [{ severity := .warning, reason := 0x10 }] else []) }) ∨
       (s.arg1.toNat ≤ 15 ∧
        t = { s with mem := s.mem.setRange (Buffer.window .rbuf) cell }.succeeded (s.draws + 1)))) ∨
    (i ∈ [Instr.tvgtag, .tvui32, .tvuu16, .tvuf32, .tvutxt] ∧ ∃ v d, t = { s with result := v }.succeeded d) := by
  rcases exec_cases i s with ⟨k, hi, e⟩ | ⟨k, hi, e⟩ | ⟨hi, e⟩ | ⟨hi, content, tag, hc, e⟩ | ⟨hi, e⟩ | ⟨hi, n, v, e⟩
  · rw [e, Host.Outcome.next.injEq] at h
    subst h
    refine .inl ⟨k, hi, ?_⟩
    rcases Nat.lt_or_ge s.cfg.maxPayloadSize (kindSize s.cfg k) with hs | hs
    · exact .inl ⟨hs, by rw [State.ser_oversized k s hs, State.complete_err]; rfl⟩
    · refine .inr ⟨hs, frameBytes s.cfg k (framePayload k (s.readBytes s.draws .rbuf 0 (kindSize s.cfg k))), by simp, ?_⟩
      rw [State.ser_fits k s hs, State.complete_ok]; rfl
  · rw [e, Host.Outcome.next.injEq] at h
    subst h
    refine .inr (.inl ⟨k, hi, ?_⟩)
    rcases s.des_cases k with ⟨c, d, h1, h2, hd⟩ | ⟨h1, h2, hd⟩
    · exact .inl ⟨c, s.draws + d, h1, h2, by rw [hd, State.complete_err]; rfl⟩
    · refine .inr ⟨h1, h2, s.readBytes (s.draws + 4) .fbuf 2 (kindSize s.cfg k), s.draws + 5, by simp, ?_⟩
      rw [hd, State.complete_ok]; rfl
  · rw [e, Host.Outcome.next.injEq] at h
    subst h
    refine .inr (.inr (.inl ⟨hi, ?_⟩))
    rcases s.crcCommand_cases with ⟨_, hd⟩ | ⟨_, hd⟩
    · exact .inl (by rw [hd, State.complete_err]; rfl)
    · refine .inr ⟨crc16 (s.readBytes s.draws .fbuf s.arg0.toNat s.arg1.toNat), s.draws + 1, ?_⟩
      rw [hd, State.complete_ok]; rfl
  · rw [e s rfl, Host.Outcome.next.injEq] at h
    subst h
    refine .inr (.inr (.inr (.inl ⟨hi, _, tvCell_length content tag (by omega), ?_⟩)))
    rw [State.pack, State.complete_ok]; rfl
  · rw [e, Host.Outcome.next.injEq] at h
    subst h
    refine .inr (.inr (.inr (.inr (.inl ⟨hi, tvCell (s.readBytes s.draws .tstage 0 (min s.arg1.toNat 15)) tagText,
      tvCell_length _ _ (by simp), ?_⟩))))
    rcases Nat.lt_or_ge 15 s.arg1.toNat with hs | hs
    · refine .inl ⟨hs, ?_⟩
      simp only [State.packText, if_pos hs]
      cases hl : s.cfg.logEnable <;> ext1 <;> simp [State.writeCell, State.succeeded, textTruncatedReason, hl]
    · refine .inr ⟨hs, ?_⟩
      simp only [State.packText, if_neg (Nat.not_lt.2 hs)]
      rw [State.complete_ok]; rfl
  · rw [e s rfl rfl, Host.Outcome.next.injEq] at h
    subst h
    refine .inr (.inr (.inr (.inr (.inr ⟨hi, v, s.draws + n, ?_⟩))))
    rw [State.answer, State.complete_ok]; rfl

end Sys2Proof.Machine
end

