-- ==== Sys2Proof/Laws/Crc.lean ====
section
/-! SUPPORT. The algebra of the CRC register: one shift is linear over XOR and loses nothing, so two messages that differ in one
byte have different CRCs. -/

namespace Sys2Proof.Machine

theorem crcShift_xor (a b : Half) : crcShift (a ^^^ b) = crcShift a ^^^ crcShift b := by
  simp only [crcShift, BitVec.getLsbD_xor, BitVec.shiftLeft_xor_distrib]
  cases a.getLsbD 15 <;> cases b.getLsbD 15 <;> simp
  · rw [BitVec.xor_assoc]
  · rw [BitVec.xor_assoc, BitVec.xor_comm (b <<< 1), ← BitVec.xor_assoc]
  · rw [BitVec.xor_assoc, ← BitVec.xor_assoc 0x1021#16, BitVec.xor_comm 0x1021#16, BitVec.xor_assoc, BitVec.xor_self,
      BitVec.xor_zero]

theorem crcShift_zero : crcShift 0 = 0 := by decide

/-- The shift loses no information: only 0 is shifted to 0. -/
theorem crcShift_eq_zero (a : Half) (h : crcShift a = 0) : a = 0 := by
  have low : (a <<< 1).getLsbD 0 = false := by simp
  unfold crcShift at h
  split at h
  · have := congrArg (fun x : Half => x.getLsbD 0) h
    simp at this
  · next h15 =>
    apply BitVec.eq_of_getLsbD_eq
    intro i hi
    by_cases hi' : i = 15
    · subst hi'; simpa using h15
    · have := congrArg (fun x : Half => x.getLsbD (i + 1)) h
      simp only [BitVec.getLsbD_shiftLeft] at this
      have h1 : i + 1 < 16 := by omega
      simpa [h1] using this

theorem crcShift_injective (a b : Half) (h : crcShift a = crcShift b) : a = b := by
  have : crcShift (a ^^^ b) = 0 := by rw [crcShift_xor, h, BitVec.xor_self]; rfl
  exact BitVec.xor_eq_zero_iff.1 (crcShift_eq_zero _ this)

/-- `n` shifts. -/
theorem crcShifts_xor (n : Nat) (a b : Half) :
    Nat.repeat crcShift n (a ^^^ b) = Nat.repeat crcShift n a ^^^ Nat.repeat crcShift n b := by
  induction n with
  | zero => rfl
  | succ n ih => simp only [Nat.repeat, ih, crcShift_xor]

theorem crcShifts_injective (n : Nat) (a b : Half) (h : Nat.repeat crcShift n a = Nat.repeat crcShift n b) : a = b := by
  induction n with
  | zero => exact h
  | succ n ih => exact ih (crcShift_injective _ _ h)

theorem crcByte_injective_left (c c' : Half) (m : Byte) (h : crcByte c m = crcByte c' m) : c = c' :=
  (BitVec.xor_left_inj _).1 (crcShifts_injective 8 _ _ h)

theorem crcByte_injective_right (c : Half) (m m' : Byte) (h : crcByte c m = crcByte c m') : m = m' := by
  have := (BitVec.xor_right_inj _).1 (crcShifts_injective 8 _ _ h)
  apply BitVec.eq_of_getLsbD_eq
  intro i hi
  have := congrArg (fun x : Half => x.getLsbD (i + 8)) this
  have h1 : i + 8 < 16 := by omega
  have h2 : i < 16 := by omega
  simpa [h1, hi, h2] using this

theorem crcFold_injective (m : List Byte) (c c' : Half) (h : m.foldl crcByte c = m.foldl crcByte c') : c = c' := by
  induction m generalizing c c' with
  | nil => exact h
  | cons b m ih => exact crcByte_injective_left _ _ b (ih _ _ h)

theorem crc16_append (m m' : List Byte) : crc16 (m ++ m') = m'.foldl crcByte (crc16 m) := List.foldl_append

/-- Changing one byte changes the CRC. -/
theorem crc16_byte_change (l r : List Byte) (b b' : Byte) (h : crc16 (l ++ b :: r) = crc16 (l ++ b' :: r)) : b = b' := by
  rw [crc16_append, crc16_append, List.foldl_cons, List.foldl_cons] at h
  exact crcByte_injective_right _ _ _ (crcFold_injective r _ _ h)

end Sys2Proof.Machine
end

