-- ==== Sys2Proof/Laws/Frame.lean ====
section
/-! SUPPORT. What a frame is to the commands that read one: the header's two readers, DES on a buffer whose bytes are known, and
what a successful SER leaves there. -/

namespace Sys2Proof.Machine

/-! ### Headers (R62) -/

/-- The two readers of a header, as numbers. -/
theorem header_readers (c : Config) (h : Byte) :
    (decodeType h).toNat = h.toNat / 32 ∧ (isValidHeader c h = true ↔ h.toNat % 32 = c.syncPattern) := by
  have key : ∀ h : BitVec 8, (h.extractLsb' 5 3).toNat = h.toNat / 32 ∧ (h &&& 0x1F).toNat = h.toNat % 32 := by decide
  refine ⟨(key h).1, ?_⟩
  rw [isValidHeader, decide_eq_true_iff, (key h).2]

/-- A header reads back as the kind and the pattern it was made of. -/
theorem header_fields (c : Config) (k : BitVec 3) (hc : c.syncPattern ≤ 0x1F) :
    decodeType (encodeHeader c k) = k ∧ isValidHeader c (encodeHeader c k) = true := by
  have key : ∀ (k : BitVec 3) (n : Fin 32), ((k.zeroExtend 8 <<< 5) ||| BitVec.ofNat 8 n.1).extractLsb' 5 3 = k ∧
      ((((k.zeroExtend 8 <<< 5) ||| BitVec.ofNat 8 n.1) &&& 0x1F).toNat = n.1) := by decide
  have := key k ⟨c.syncPattern, by omega⟩
  exact ⟨this.1, by simpa [isValidHeader, encodeHeader] using this.2⟩

theorem kindCode_injective (j k : Kind) (h : j.code = k.code) : j = k := by
  cases j <;> cases k <;> first | rfl | exact absurd h (by decide)

/-! ### Little-endian halves -/

theorem le16_injective (a b : Half) (h : le16 a = le16 b) : a = b := by
  simp only [le16, List.cons.injEq, and_true] at h
  have e := le16_of_bytes a
  rw [h.1, h.2, le16_of_bytes] at e
  exact e.symm

/-! ### DES on known bytes -/

/-- DES(K) (R97) when every byte of the frame, header `h`, length byte `l` and the rest, has been written. -/
theorem State.des_of_holds (k : Kind) (s : State) (h l : Byte) (rest : List Byte)
    (hH : s.Holds .fbuf 0 (h :: l :: rest)) (hlen : s.flen.toNat = 2 + rest.length)
    (hfit : 2 + rest.length ≤ fbufSize s.cfg) (h2 : 2 ≤ rest.length) :
    s.des k =
      if isValidHeader s.cfg h = false then (.err .invalidHeader, s.useDraws 5)
      else if decodeType h ≠ k.code then (.err .kindMismatch, s.useDraws 5)
      else if rest.length ≠ l.toNat + 2 then (.err .lengthInconsistent, s.useDraws 5)
      else if l.toNat ≠ kindSize s.cfg k then (.err .payloadSizeMismatch, s.useDraws 5)
      else if le16 (crc16 (h :: l :: rest.take l.toNat)) ≠ rest.drop l.toNat then
        (.err .integrityCheckFailed, s.useDraws 5)
      else (.ok false, (s.useDraws 5).writeBytes .rbuf 0 (rest.take l.toNat)) := by
  have hb : ∀ t j (hj : j < (h :: l :: rest).length), s.readByte t .fbuf j = (h :: l :: rest)[j] := by
    intro t j hj
    have := s.readByte_of_holds t .fbuf 0 _ hH j hj
    rwa [Nat.zero_add] at this
  have r0 : ∀ t, s.readByte t .fbuf 0 = h := fun t => hb t 0 (by simp)
  have r1 : ∀ t, s.readByte t .fbuf 1 = l := fun t => hb t 1 (by simp)
  have c0 : ¬ fbufSize s.cfg < s.flen.toNat := by omega
  have c1 : ¬ s.flen.toNat < 4 := by omega
  unfold State.des
  simp only [r0, r1, if_neg c0, if_neg c1]
  by_cases c4 : rest.length ≠ l.toNat + 2
  · have c4' : s.flen.toNat ≠ 2 + l.toNat + 2 := by omega
    simp only [if_pos c4, if_pos c4']
  · have c4' : ¬ s.flen.toNat ≠ 2 + l.toNat + 2 := by omega
    have hl : rest.length = l.toNat + 2 := not_not.1 c4
    have m : ∀ t, s.readBytes t .fbuf 0 (2 + l.toNat) = h :: l :: rest.take l.toNat := by
      intro t
      apply List.ext_getElem
      · simp; omega
      · intro j h1 h3
        rw [State.readBytes_getElem, Nat.zero_add, hb t j (by simp at h1 ⊢; omega)]
        rcases j with _ | _ | j <;> simp
    have p : ∀ t, s.readBytes t .fbuf 2 l.toNat = rest.take l.toNat := by
      intro t
      apply List.ext_getElem
      · simp; omega
      · intro j h1 h3
        have h1' : j < l.toNat := by simpa using h1
        rw [State.readBytes_getElem, hb t (2 + j) (by simp; omega)]
        simp [Nat.add_comm 2 j]
    have tr : ∀ t, rest.drop l.toNat =
        [s.readByte t .fbuf (2 + l.toNat), s.readByte t .fbuf (2 + l.toNat + 1)] := by
      intro t
      rw [hb t _ (by simp; omega), hb t _ (by simp; omega)]
      apply List.ext_getElem
      · simp; omega
      · intro j h1 h3
        have : j = 0 ∨ j = 1 := by simp at h3; omega
        rcases this with rfl | rfl <;> simp [Nat.add_comm 2 l.toNat]
    have crc : (crc16 (h :: l :: rest.take l.toNat) ≠ s.rd16le (s.draws + 3) .fbuf (2 + l.toNat)) ↔
        (le16 (crc16 (h :: l :: rest.take l.toNat)) ≠ rest.drop l.toNat) := by
      rw [tr (s.draws + 3), ← bytes_of_le16 (s.readByte (s.draws + 3) .fbuf (2 + l.toNat))]
      exact not_congr ⟨fun e => congrArg le16 e, le16_injective _ _⟩
    simp only [if_neg c4, if_neg c4', m, p, crc]

/-! ### What SER leaves -/

/-- A SER that succeeds left its frame, and FLEN its length (R91). -/
theorem exec_ser_ok (k : Kind) (s t : State) (ht : exec (serInstr k) s = .next t) (he : t.errCode = 0) :
    kindSize s.cfg k ≤ s.cfg.maxPayloadSize ∧ t.cfg = s.cfg ∧ t.flen = BitVec.ofNat 16 (4 + kindSize s.cfg k) ∧
    t.Holds .fbuf 0 (frameBytes s.cfg k (framePayload k (s.readBytes s.draws .rbuf 0 (kindSize s.cfg k)))) := by
  rw [exec_ser, Host.Outcome.next.injEq] at ht
  subst ht
  rcases Nat.lt_or_ge s.cfg.maxPayloadSize (kindSize s.cfg k) with hs | hs
  · rw [State.ser_oversized k s hs] at he
    simp [ErrCode.code] at he
  · rw [State.ser_fits k s hs]
    refine ⟨hs, by simp, by simp, ?_⟩
    apply State.holds_of_setRange (m := s.mem)
    simp

theorem kindSize_flen (c : Config) (k : Kind) (h : kindSize c k ≤ c.maxPayloadSize) (hc : c.maxPayloadSize ≤ 255) :
    (BitVec.ofNat 16 (4 + kindSize c k)).toNat = 4 + kindSize c k := by
  rw [BitVec.toNat_ofNat]; omega

theorem frameBytes_cons (c : Config) (k : Kind) (p : List Byte) :
    frameBytes c k p = encodeHeader c k.code :: BitVec.ofNat 8 p.length :: (p ++ le16 (crc16 (frameBody c k p))) := rfl

end Sys2Proof.Machine
end

