-- ==== Sys2Proof/Laws/Step.lean ====
section
/-! SUPPORT. What one step is, by whose turn it is, and what each of a host's operations does. -/

namespace Sys2Proof.Machine

theorem State.useTurn_eq (s : State) : s.useTurn = { s with turns := s.turns.tail } := rfl

/-- A legal build takes the step of the agent whose turn it is. -/
theorem step_of_wf (s : State) (h : s.cfg.wf = true) : step s = runTurn s.turn s.useTurn := by simp [step, h]

theorem step_of_not_wf (s : State) (h : s.cfg.wf = false) : step s = .refused .illegalConfiguration := by simp [step, h]

theorem State.engineNext_turn (s : State) (h : s.engineNext) : s.turn = .engine := by
  obtain ⟨-, h | ⟨h, hp⟩⟩ := h
  · obtain ⟨rest, hr⟩ := List.head?_eq_some_iff.1 h
    simp [State.turn, hr]
  · simp [State.turn, h, Option.isSome_iff_ne_none.2 hp]

theorem State.hostNext_turn (s : State) (h : s.hostNext) : s.turn = .host := by
  obtain ⟨-, h | ⟨h, hp⟩⟩ := h
  · obtain ⟨rest, hr⟩ := List.head?_eq_some_iff.1 h
    simp [State.turn, hr]
  · simp [State.turn, h, hp]

theorem State.resetNext_turn (s : State) (h : s.resetNext) : s.turn = .reset := by
  obtain ⟨rest, hr⟩ := List.head?_eq_some_iff.1 h.2
  simp [State.turn, hr]

theorem step_engine (s : State) (h : s.engineNext) : step s = engineStep s.useTurn := by
  rw [step_of_wf s h.1, s.engineNext_turn h]; rfl

theorem step_host (s : State) (h : s.hostNext) : step s = hostStep s.useTurn := by
  rw [step_of_wf s h.1, s.hostNext_turn h]; rfl

theorem step_reset (s : State) (h : s.resetNext) : step s = .next s.useTurn.assertReset := by
  rw [step_of_wf s h.1, s.resetNext_turn h]; rfl

/-- The engine's turn on a pending word runs that word. -/
theorem step_engine_pending (s : State) (w : Word) (h : s.engineNext) (hp : s.pending = some w) :
    step s = executeWord w s.useTurn := by
  rw [step_engine s h]
  simp [engineStep, hp]

/-- Everything a step can be. -/
theorem step_cases (s t : State) (h : step s = .next t) :
    s.cfg.wf = true ∧
    ((s.turn = .engine ∧ engineStep s.useTurn = .next t) ∨ (s.turn = .host ∧ hostStep s.useTurn = .next t) ∨
      (s.turn = .reset ∧ t = s.useTurn.assertReset)) := by
  cases hw : s.cfg.wf with
  | false => rw [step_of_not_wf s hw] at h; cases h
  | true =>
    rw [step_of_wf s hw] at h
    cases ht : s.turn with
    | engine => exact ⟨rfl, .inl ⟨rfl, by simpa [ht, runTurn] using h⟩⟩
    | host => exact ⟨rfl, .inr (.inl ⟨rfl, by simpa [ht, runTurn] using h⟩)⟩
    | reset =>
      rw [ht] at h
      simp only [runTurn, Host.Outcome.next.injEq] at h
      exact ⟨rfl, .inr (.inr ⟨rfl, h.symm⟩)⟩

/-- A run that begins with a step to `t` is one step and the run from `t`. -/
theorem run_succ_of_next (M : Host.Core) (k : Nat) (s t : M.State) (h : M.step s = .next t) :
    M.run (k + 1) s = M.run k t := by
  simp only [Host.Core.run, h]

/-! ### The host's operations -/

/-- The host's read of an offset of the region is `hostRead` there. -/
theorem step_host_read (s : State) (off : Nat) (w : Width) (rest : List HostOp) (h : s.hostNext) (ho : off < 4096)
    (hq : s.hostQueue = .read (s.cfg.base + off) w :: rest) :
    step s = .next { s.useTurn.hostRead off w with hostQueue := rest } := by
  rw [step_host s h]
  simp [hostStep, hq, inRegion, ho]

/-- The host's write of an offset of the region is `hostWrite` there. -/
theorem step_host_write (s : State) (off : Nat) (w : Width) (v : Word) (rest : List HostOp) (h : s.hostNext)
    (ho : off < 4096) (hq : s.hostQueue = .write (s.cfg.base + off) w v :: rest) :
    step s = .next { s.useTurn.hostWrite off w v with hostQueue := rest } := by
  rw [step_host s h]
  simp [hostStep, hq, inRegion, ho]

/-- A read that is a host fault (R123). -/
theorem State.hostRead_error (s : State) (o : Nat) (w : Width) (r : HostFaultReason) (h : s.judge o w false = .error r) :
    s.hostRead o w = (s.logRead o w (w.mask (Config.freeWord s.draws))).raiseHostFault r o w false := by
  simp [State.hostRead, State.readValue, h]

/-- A legal read of a register. -/
theorem State.hostRead_register (s : State) (o : Nat) (w : Width) (r : Reg) (h : s.judge o w false = .ok (.register r)) :
    s.hostRead o w = s.logRead o w (s.regWord r) := by
  simp [State.hostRead, State.readValue, h]

/-- A legal read of a buffer. -/
theorem State.hostRead_buffer (s : State) (o : Nat) (w : Width) (b : Buffer) (i : Nat)
    (h : s.judge o w false = .ok (.buffer b i)) :
    s.hostRead o w = s.logRead o w (wordOfBytes (s.readBytes s.draws b i w.bytes)) := by
  simp [State.hostRead, State.readValue, h]

/-- A read changes what it records and nothing else: the read log, the draw counter and HFAULT (R44). -/
theorem State.hostRead_frame (s : State) (o : Nat) (w : Width) :
    ∃ v f, s.hostRead o w = { s with
      readLog := s.readLog ++ [{ offset := o, width := w, value := v }], draws := s.draws + 1, hfault := f } ∧
      (f = s.hfault ∨ ∃ r, s.judge o w false = .error r ∧ f = (s.raiseHostFault r o w false).hfault) := by
  cases h : s.judge o w false with
  | error r =>
    refine ⟨w.mask (Config.freeWord s.draws), (s.raiseHostFault r o w false).hfault, ?_, .inr ⟨r, rfl, rfl⟩⟩
    rw [s.hostRead_error o w r h]
    ext1 <;> simp
    rfl
  | ok tgt =>
    refine ⟨s.readValue o w, s.hfault, ?_, .inl rfl⟩
    simp only [State.hostRead, h]
    rfl

/-- HFAULT after a record is raised: a set with that record in it. -/
theorem State.mem_hfault_raise (s : State) (r : HostFaultReason) (o : Nat) (w : Width) (b : Bool) (x : HostFaultRecord) :
    x ∈ (s.raiseHostFault r o w b).hfault ↔
      x ∈ s.hfault ∨ x = { reason := r, offset := o, width := w, isWrite := b } := by
  rw [State.raiseHostFault_hfault]
  split
  · constructor
    · exact .inl
    · rintro (h | rfl) <;> assumption
  · simp

theorem State.hfault_raise_prefix (s : State) (r : HostFaultReason) (o : Nat) (w : Width) (b : Bool) :
    s.hfault <+: (s.raiseHostFault r o w b).hfault := by
  rw [State.raiseHostFault_hfault]
  split <;> simp

theorem State.hfault_raise_nodup (s : State) (r : HostFaultReason) (o : Nat) (w : Width) (b : Bool) (h : s.hfault.Nodup) :
    (s.raiseHostFault r o w b).hfault.Nodup := by
  rw [State.raiseHostFault_hfault]
  split
  · exact h
  · next hn => exact List.nodup_append.2 ⟨h, by simp, by rintro x hx y hy rfl; simp at hy; exact hn (hy ▸ hx)⟩

/-- Everything a host step can be: nothing to do; a read or a POLL, which changes the read log, the draws and HFAULT only; a
write that is a host fault, a register write, or a buffer write inside the buffer. -/
theorem hostStep_cases (s t : State) (h : hostStep s = .next t) :
    t = s ∨
    (∃ q o w v f, t = { s with
        hostQueue := q, readLog := s.readLog ++ [{ offset := o, width := w, value := v }], draws := s.draws + 1, hfault := f } ∧
      (f = s.hfault ∨ ∃ r, f = (s.raiseHostFault r o w false).hfault)) ∨
    (∃ q r o w, t = { s.raiseHostFault r o w true with hostQueue := q }) ∨
    (∃ q r v, s.pending = none ∧ t = { s.writeReg r v with hostQueue := q }) ∨
    (∃ (q : List HostOp) (b : Buffer) (i : Nat) (w : Width) (v : Word), s.pending = none ∧ i + w.bytes ≤ Buffer.size s.cfg b ∧
      t = { s.writeBytes b i (bytesOfWord w.bytes v) with hostQueue := q }) := by
  have rd : ∀ (o : Nat) (w : Width) (q : List HostOp), ∃ q' o' w' v f,
      ({ s.hostRead o w with hostQueue := q } : State) = { s with
        hostQueue := q', readLog := s.readLog ++ [{ offset := o', width := w', value := v }], draws := s.draws + 1,
        hfault := f } ∧ (f = s.hfault ∨ ∃ r, f = (s.raiseHostFault r o' w' false).hfault) := by
    intro o w q
    obtain ⟨v, f, he, hf⟩ := s.hostRead_frame o w
    exact ⟨q, o, w, v, f, by rw [he], hf.imp id fun ⟨r, _, h⟩ => ⟨r, h⟩⟩
  unfold hostStep at h
  split at h
  · exact .inl (by simpa using h.symm)
  · split at h
    · injection h with h; subst h; exact .inr (.inl (rd _ _ _))
    · cases h
  · next a w v rest _ =>
    split at h
    · injection h with h
      subst h
      refine .inr (.inr ?_)
      generalize a - s.cfg.base = o
      unfold State.hostWrite
      split
      · next r _ => exact .inl ⟨rest, r, o, w, rfl⟩
      · next r ha =>
        refine .inr (.inl ⟨rest, r, v, ?_, rfl⟩)
        unfold State.judge at ha
        split at ha
        · cases ha
        · next hp => simpa [allowedWhileBusy] using hp
      · next b i ha =>
        refine .inr (.inr ⟨rest, b, i, w, v, ?_, ?_, rfl⟩)
        · unfold State.judge at ha
          split at ha
          · cases ha
          · next hp => simpa [allowedWhileBusy] using hp
        · unfold State.judge at ha
          split at ha
          · cases ha
          · unfold classify at ha
            split at ha
            · split at ha <;> cases ha
            · split at ha
              · cases ha
              · split at ha
                · next hb hc =>
                  cases ha
                  have hw : b.window ≤ o := by
                    unfold bufferAt at hb
                    split at hb
                    · next h1 => cases hb; exact h1.1
                    · split at hb
                      · next h1 => cases hb; exact h1.1
                      · split at hb
                        · next h1 => cases hb; exact h1.1
                        · cases hb
                  omega
                · cases ha
    · cases h
  · next rest hq =>
    simp only at h
    split at h
    · injection h with h
      subst h
      have := rd (Reg.offset .status) .w32 s.hostQueue
      refine .inr (.inl ?_)
      have e : ({ s.hostRead (Reg.offset .status) .w32 with hostQueue := s.hostQueue } : State) =
          s.hostRead (Reg.offset .status) .w32 := by
        obtain ⟨v, f, he, -⟩ := s.hostRead_frame (Reg.offset .status) .w32
        rw [he]
      rwa [e] at this
    · injection h with h; subst h; exact .inr (.inl (rd _ _ _))

end Sys2Proof.Machine
end

