-- ==== Sys2Proof/Laws/HostPort.lean ====
section
/-! SUPPORT. Where a host access lands (R35, R38 to R40, R137) and what a legal one moves (R39, R43). -/

namespace Sys2Proof.Machine

/-- The legal ranges of a build, as facts. -/
theorem Config.wf_bounds (c : Config) (h : c.wf = true) :
    c.syncPattern ≤ 0x1F ∧ c.maxPayloadSize ≤ 255 ∧ 1 ≤ c.maxModules ∧ c.maxModules ≤ 255 ∧ c.base % 4096 = 0 := by
  simpa [Config.wf, and_assoc] using h

/-- No two buffers overlap in a legal build, and all lie above the registers and inside the region (R35, R8). -/
theorem buffer_bounds (c : Config) (h : c.wf = true) (b : Buffer) :
    0x24 ≤ b.window ∧ b.window + Buffer.size c b < 4096 ∧
    (b = .tstage → b.window + Buffer.size c b ≤ 0x200) ∧ (b = .fbuf → b.window + Buffer.size c b ≤ 0x400) := by
  have := Config.wf_bounds c h
  cases b <;> simp [Buffer.window, Buffer.size, fbufSize, rbufSize] <;> omega

/-- A byte of a buffer is found in that buffer. -/
theorem bufferAt_window (c : Config) (h : c.wf = true) (b : Buffer) (i : Nat) (hi : i < Buffer.size c b) :
    bufferAt c (b.window + i) = some b := by
  have hb := buffer_bounds c h
  have h1 := (hb .tstage).2.2.1 rfl
  have h2 := (hb .fbuf).2.2.2 rfl
  simp only [Buffer.window] at h1 h2
  cases b
  · change bufferAt c (0x100 + i) = _
    rw [bufferAt, if_pos (by omega)]
  · change bufferAt c (0x200 + i) = _
    rw [bufferAt, if_neg (by omega), if_pos (by omega)]
  · change bufferAt c (0x400 + i) = _
    rw [bufferAt, if_neg (by omega), if_neg (by omega), if_pos (by omega)]

/-- An offset at which a buffer is found is a byte of it. -/
theorem bufferAt_some (c : Config) (o : Nat) (b : Buffer) (h : bufferAt c o = some b) :
    b.window ≤ o ∧ o < b.window + Buffer.size c b := by
  unfold bufferAt at h
  split at h
  · cases h; assumption
  · split at h
    · cases h; assumption
    · split at h
      · cases h; assumption
      · cases h

/-- An offset is a byte of a buffer exactly when one is found there. -/
theorem bufferAt_none_iff (c : Config) (h : c.wf = true) (o : Nat) : bufferAt c o = none ↔ ¬ Mapped c o := by
  constructor
  · rintro hn ⟨b, i, hi, rfl⟩
    rw [bufferAt_window c h b i hi] at hn
    cases hn
  · intro hm
    cases hb : bufferAt c o with
    | none => rfl
    | some b =>
      have := bufferAt_some c o b hb
      exact absurd ⟨b, o - b.window, by omega, by omega⟩ hm

/-- While nothing is pending an access is judged by R38 to R40 alone. -/
theorem State.judge_idle (s : State) (o : Nat) (w : Width) (b : Bool) (h : s.pending = none) :
    s.judge o w b = classify s.cfg o w := by simp [State.judge, h]

/-- While a command is pending only a 4-byte read of STATUS or PARAM is allowed (R137). -/
theorem State.judge_busy (s : State) (o : Nat) (w : Width) (b : Bool) (h : s.pending ≠ none)
    (hn : ¬ (b = false ∧ w = .w32 ∧ (o = 0x004 ∨ o = 0x020))) : s.judge o w b = .error .hazard := by
  obtain ⟨v, hv⟩ := Option.ne_none_iff_exists'.1 h
  have : allowedWhileBusy o w b = false := by
    rw [← Bool.not_eq_true]
    simp only [allowedWhileBusy, Bool.and_eq_true, Bool.or_eq_true, Bool.not_eq_true', decide_eq_true_iff, Reg.offset]
    rintro ⟨⟨h1, h2⟩, h3⟩
    exact hn ⟨h1, h2, h3.imp of_decide_eq_true of_decide_eq_true⟩
  simp [State.judge, hv, this]

/-- An access that starts in a buffer (R39). -/
theorem classify_buffer (c : Config) (h : c.wf = true) (b : Buffer) (i : Nat) (w : Width) (hi : i < Buffer.size c b) :
    classify c (b.window + i) w =
      if (b.window + i) % w.bytes = 0 ∧ i + w.bytes ≤ Buffer.size c b then .ok (.buffer b i) else .error .badAccess := by
  have h1 := (buffer_bounds c h b).1
  have e : (b.window + i + w.bytes ≤ b.window + Buffer.size c b) = (i + w.bytes ≤ Buffer.size c b) := by
    rw [Nat.add_assoc, Nat.add_le_add_iff_left]
  unfold classify
  rw [if_neg (by omega), bufferAt_window c h b i hi]
  simp only [e, Nat.add_sub_cancel_left]

/-- An access that starts at an unmapped offset (R40). -/
theorem classify_unmapped (c : Config) (h : c.wf = true) (o : Nat) (w : Width) (h1 : 0x24 ≤ o) (h2 : ¬ Mapped c o) :
    classify c o w = .error .unmapped := by
  unfold classify
  rw [if_neg (by omega), (bufferAt_none_iff c h o).2 h2]

/-- The bytes a write stores, by index (R39). -/
theorem bytesOfWord_getElem (n : Nat) (v : Word) (k : Nat) (h : k < (bytesOfWord n v).length) :
    (bytesOfWord n v)[k] = v.extractLsb' (8 * k) 8 := by simp [bytesOfWord]

@[simp] theorem bytesOfWord_length (n : Nat) (v : Word) : (bytesOfWord n v).length = n := by simp [bytesOfWord]

/-- A word assembled from at most four bytes is their little-endian number (R43). -/
theorem wordOfBytes_toNat (bs : List Byte) (h : bs.length ≤ 4) :
    (wordOfBytes bs).toNat = Nat.ofDigits 256 (bs.map BitVec.toNat) := by
  have key : ∀ (n : Nat) (bs : List Byte), bs.length ≤ n → n ≤ 4 →
      (wordOfBytes bs).toNat = Nat.ofDigits 256 (bs.map BitVec.toNat) ∧ (wordOfBytes bs).toNat < 256 ^ bs.length := by
    intro n
    induction n with
    | zero =>
      intro bs h _
      have : bs = [] := List.length_eq_zero_iff.1 (by omega)
      subst this
      decide
    | succ n ih =>
      intro bs h hn
      cases bs with
      | nil => decide
      | cons b bs =>
        have hl : bs.length ≤ n := by simpa using h
        obtain ⟨e, lt⟩ := ih bs hl (by omega)
        have hb := b.isLt
        have p : 256 ^ bs.length ≤ 256 ^ 3 := Nat.pow_le_pow_right (by decide) (by omega)
        have hs : ((wordOfBytes bs) <<< 8).toNat = 256 * (wordOfBytes bs).toNat := by
          rw [BitVec.toNat_shiftLeft, Nat.shiftLeft_eq, Nat.mod_eq_of_lt (by omega), Nat.mul_comm]
        have he : (wordOfBytes (b :: bs)).toNat = b.toNat + 256 * (wordOfBytes bs).toNat := by
          rw [wordOfBytes, BitVec.toNat_or, hs]
          have hz : (b.zeroExtend 32).toNat = b.toNat := by simp; omega
          rw [hz, show 256 * (wordOfBytes bs).toNat = 2 ^ 8 * (wordOfBytes bs).toNat from rfl, Nat.or_comm,
            ← Nat.two_pow_add_eq_or_of_lt (by omega)]
          omega
        refine ⟨by rw [he, e]; rfl, ?_⟩
        rw [he, List.length_cons, Nat.pow_succ]
        omega
  exact (key bs.length bs (Nat.le_refl _) h).1

end Sys2Proof.Machine
end

