-- ==== Sys2Proof/Laws/PerInstr.lean ====
section
/-! SUPPORT. One lemma per command about its word (R52, R53): the reserved bits are 0, N is set only on the null TVPTXT, and the
table word read back is the command. -/

namespace Sys2Proof.Laws.Encoding

/-- What is said of every command's word. -/
def Statement (i : Instr) : Prop :=
  i.wf = true ∧ reservedField (encode i) = 0 ∧ (nullField (encode i) = true ↔ i = .tvptxt true) ∧
    decodeTableWord 32 (encode i).toNat = some i

theorem serCmd : Statement .serCmd := ⟨rfl, by decide, by decide, by decide⟩

theorem serDsc : Statement .serDsc := ⟨rfl, by decide, by decide, by decide⟩

theorem serTel : Statement .serTel := ⟨rfl, by decide, by decide, by decide⟩

theorem serSet : Statement .serSet := ⟨rfl, by decide, by decide, by decide⟩

theorem serTv : Statement .serTv := ⟨rfl, by decide, by decide, by decide⟩

theorem desCmd : Statement .desCmd := ⟨rfl, by decide, by decide, by decide⟩

theorem desDsc : Statement .desDsc := ⟨rfl, by decide, by decide, by decide⟩

theorem desTel : Statement .desTel := ⟨rfl, by decide, by decide, by decide⟩

theorem desSet : Statement .desSet := ⟨rfl, by decide, by decide, by decide⟩

theorem desTv : Statement .desTv := ⟨rfl, by decide, by decide, by decide⟩

theorem crc : Statement .crc := ⟨rfl, by decide, by decide, by decide⟩

theorem tvclr : Statement .tvclr := ⟨rfl, by decide, by decide, by decide⟩

theorem tvpi32 : Statement .tvpi32 := ⟨rfl, by decide, by decide, by decide⟩

theorem tvpu16 : Statement .tvpu16 := ⟨rfl, by decide, by decide, by decide⟩

theorem tvpf32 : Statement .tvpf32 := ⟨rfl, by decide, by decide, by decide⟩

theorem tvptxt (n : Bool) : Statement (.tvptxt n) := by cases n <;> exact ⟨rfl, by decide, by decide, by decide⟩

theorem tvgtag : Statement .tvgtag := ⟨rfl, by decide, by decide, by decide⟩

theorem tvui32 : Statement .tvui32 := ⟨rfl, by decide, by decide, by decide⟩

theorem tvuu16 : Statement .tvuu16 := ⟨rfl, by decide, by decide, by decide⟩

theorem tvuf32 : Statement .tvuf32 := ⟨rfl, by decide, by decide, by decide⟩

theorem tvutxt : Statement .tvutxt := ⟨rfl, by decide, by decide, by decide⟩

end Sys2Proof.Laws.Encoding
end

