-- ==== Sys2Proof/Laws/Records.lean ====
section
/-! SUPPORT. The fields of a record image: each field's reader gives back what its writer laid down, and each reader's bytes are
the image's own. -/

namespace Sys2Proof.Machine

/-- A byte of the middle one of three pieces. -/
theorem getD_middle (l m r : List Byte) (j : Nat) (h : j < m.length) : (l ++ (m ++ r)).getD (l.length + j) 0 = m[j] := by
  simp [List.getD_eq_getElem?_getD, List.getElem?_append_right, List.getElem?_append_left h, h]

/-- A 16-bit field reads back as written. -/
theorem half_le16 (v : Half) (l r : List Byte) : half (l ++ (le16 v ++ r)) l.length = v := by
  have h0 := getD_middle l (le16 v) r 0 (by simp [le16])
  have h1 := getD_middle l (le16 v) r 1 (by simp [le16])
  rw [Nat.add_zero] at h0
  rw [half, h0, h1]
  exact le16_of_bytes v

/-- A 32-bit field reads back as written. -/
theorem word_le32 (v : Word) (l r : List Byte) : word (l ++ (le32 v ++ r)) l.length = v := by
  have h0 := getD_middle l (le32 v) r 0 (by simp [le32])
  have h1 := getD_middle l (le32 v) r 1 (by simp [le32])
  have h2 := getD_middle l (le32 v) r 2 (by simp [le32])
  have h3 := getD_middle l (le32 v) r 3 (by simp [le32])
  rw [Nat.add_zero] at h0
  rw [word, h0, h1, h2, h3]
  exact le32_of_bytes v

/-- The bytes of a 16-bit field are the image's. -/
theorem le16_half (p : List Byte) (i : Nat) (h : i + 2 ≤ p.length) : le16 (half p i) = (p.drop i).take 2 := by
  rw [half, bytes_of_le16]
  apply List.ext_getElem
  · simp; omega
  · intro j h1 h2
    have : j = 0 ∨ j = 1 := by simp at h1; omega
    have a0 : i < p.length := by omega
    have a1 : i + 1 < p.length := by omega
    rcases this with rfl | rfl <;> simp [a0, a1]

/-- The bytes of a 32-bit field are the image's. -/
theorem le32_word (p : List Byte) (i : Nat) (h : i + 4 ≤ p.length) : le32 (word p i) = (p.drop i).take 4 := by
  rw [word, bytes_of_le32]
  apply List.ext_getElem
  · simp; omega
  · intro j h1 h2
    have : j = 0 ∨ j = 1 ∨ j = 2 ∨ j = 3 := by simp at h1; omega
    have a0 : i < p.length := by omega
    have a1 : i + 1 < p.length := by omega
    have a2 : i + 2 < p.length := by omega
    have a3 : i + 3 < p.length := by omega
    rcases this with rfl | rfl | rfl | rfl <;> simp [a0, a1, a2, a3]

/-- Two neighbouring pieces of an image are one piece. -/
theorem take_drop_glue (p : List Byte) (i a b : Nat) : (p.drop i).take a ++ (p.drop (i+a)).take b = (p.drop i).take (a+b) := by
  rw [List.take_add, List.drop_drop]

/-- A TV cell has 18 bytes (R71). -/
theorem tvBytes_length (v : TvValue) (h : v.storage.length = 16) : (tvBytes v).length = 18 := by simp [tvBytes, le16, h]

/-- A TV cell reads back as written. -/
theorem tvOf_bytes (v : TvValue) (h : v.storage.length = 16) (r : List Byte) : tvOf (tvBytes v ++ r) = v := by
  have := half_le16 v.tag v.storage r
  rw [h] at this
  simp only [tvOf, tvBytes, List.append_assoc, this]
  rw [List.take_left' h]

/-- A module reads back as written. -/
theorem moduleOf_at (l : List Byte) (m : ModuleInfo) (r : List Byte) : moduleOf (l ++ (moduleBytes m ++ r)) l.length = m := by
  have h1 := half_le16 m.typeId l ([m.instanceId] ++ le32 m.capabilities ++ r)
  have h2 := word_le32 m.capabilities (l ++ le16 m.typeId ++ [m.instanceId]) r
  have e : (l ++ le16 m.typeId ++ [m.instanceId]).length = l.length + 3 := by simp [le16]
  rw [e] at h2
  simp only [List.append_assoc] at h1 h2
  simp only [moduleOf, moduleBytes, List.append_assoc, h1, h2]
  simp [le16]

/-- All modules of an array read back as written. -/
theorem modules_at (ms : List ModuleInfo) (l r : List Byte) :
   (List.range ms.length).map (fun i => moduleOf (l ++ (ms.flatMap moduleBytes ++ r)) (l.length + 7 * i)) = ms := by
  induction ms generalizing l with
  | nil => rfl
  | cons m ms ih =>
    rw [List.length_cons, List.range_succ_eq_map, List.map_cons, List.map_map]
    congr 1
    · simpa using moduleOf_at l m (ms.flatMap moduleBytes ++ r)
    · have := ih (l ++ moduleBytes m)
      have e : (l ++ moduleBytes m).length = l.length + 7 := by simp [moduleBytes, le16, le32]
      rw [e] at this
      simp only [List.append_assoc] at this
      conv_rhs => rw [← this]
      apply List.map_congr_left
      intro i _
      simp only [List.flatMap_cons, List.append_assoc, Function.comp]
      congr 1; omega

/-- An array of modules has 7 bytes for each (R66). -/
theorem moduleBytes_flatMap_length (ms : List ModuleInfo) : (ms.flatMap moduleBytes).length = 7 * ms.length := by
  induction ms with
  | nil => rfl
  | cons m ms ih => simp [ih, moduleBytes, le16, le32]; omega

/-- The bytes of a module are the image's. -/
theorem moduleBytes_of (p : List Byte) (i : Nat) (h : i + 7 ≤ p.length) : moduleBytes (moduleOf p i) = (p.drop i).take 7 := by
  simp only [moduleBytes, moduleOf]
  rw [le16_half p i (by omega), le32_word p (i+3) (by omega)]
  have e : [p.getD (i + 2) 0] = (p.drop (i+2)).take 1 := by
    have : i + 2 < p.length := by omega
    rw [List.drop_eq_getElem_cons this, List.take_succ_cons, List.take_zero]; simp [this]
  rw [e, take_drop_glue]
  exact take_drop_glue p i 3 4

/-- The bytes of an array of modules are the image's. -/
theorem modules_bytes (p : List Byte) (i n : Nat) (h : i + 7 * n ≤ p.length) :
   ((List.range n).map fun j => moduleOf p (i + 7 * j)).flatMap moduleBytes = (p.drop i).take (7 * n) := by
  induction n with
  | zero => simp
  | succ n ih =>
    rw [List.range_succ, List.map_append, List.flatMap_append, ih (by omega)]
    simp only [List.map_cons, List.map_nil, List.flatMap_cons, List.flatMap_nil, List.append_nil]
    rw [moduleBytes_of _ _ (by omega), take_drop_glue]; rfl

end Sys2Proof.Machine
end

