-- ==== Sys2Proof/Laws/TaggedValue.lean ====
section
/-! SUPPORT. What the TV commands read and write, as numbers and byte lists: the reads of RBUF under one draw, the tag test, and
the text scan. -/

namespace Sys2Proof.Machine

/-! ### Short reads are allowed reads (R28) -/

theorem State.yields_one (s : State) (t : Nat) (b : Buffer) (i : Nat) : s.Yields b i [s.readByte t b i] := by
  have := s.readBytes_yields t b i 1
  simpa [State.readBytes, List.range_succ] using this

theorem State.yields_two (s : State) (t : Nat) (b : Buffer) (i : Nat) :
    s.Yields b i [s.readByte t b i, s.readByte t b (i + 1)] := by
  have := s.readBytes_yields t b i 2
  simpa [State.readBytes, List.range_succ] using this

theorem State.yields_four (s : State) (t : Nat) (b : Buffer) (i : Nat) :
    s.Yields b i [s.readByte t b i, s.readByte t b (i + 1), s.readByte t b (i + 2), s.readByte t b (i + 3)] := by
  have := s.readBytes_yields t b i 4
  simpa [State.readBytes, List.range_succ] using this

/-! ### Reads as numbers -/

/-- The 16 bits at `i`, zero-extended, as a number. -/
theorem State.rd16le_zeroExtend (s : State) (t : Nat) (b : Buffer) (i : Nat) :
    (s.rd16le t b i).zeroExtend 32 = BitVec.ofNat 32 ((s.readByte t b i).toNat + 256 * (s.readByte t b (i + 1)).toNat) := by
  apply BitVec.eq_of_toNat_eq
  rw [← s.rd16le_toNat, BitVec.toNat_ofNat]
  have := (s.rd16le t b i).isLt
  simp

/-- The 32 bits at `i` as a number. -/
theorem State.rd32le_ofNat (s : State) (t : Nat) (b : Buffer) (i : Nat) :
    s.rd32le t b i = BitVec.ofNat 32 ((s.readByte t b i).toNat + 256 * (s.readByte t b (i + 1)).toNat +
      65536 * (s.readByte t b (i + 2)).toNat + 16777216 * (s.readByte t b (i + 3)).toNat) := by
  rw [← s.rd32le_toNat, BitVec.ofNat_toNat, BitVec.setWidth_eq]

/-- The tag test of R86 to R88 on the two tag bytes. -/
theorem State.tvTag_eq_iff (s : State) (t v : Nat) (hv : v < 65536) :
    s.tvTag t = BitVec.ofNat 16 v ↔
      (s.readByte t .rbuf 16).toNat + 256 * (s.readByte t .rbuf (16 + 1)).toNat = v := by
  rw [← s.rd16le_toNat, ← BitVec.toNat_inj, BitVec.toNat_ofNat, Nat.mod_eq_of_lt (by omega)]
  rfl

/-! ### Reading a cell that was just written (R73, R90) -/

/-- A byte of the cell reads as written, under every draw. -/
theorem State.readByte_of_cell (s : State) (m : Memory) (cell : List Byte) (t j : Nat) (hj : j < cell.length)
    (h : s.mem = Memory.setRange m (Buffer.window .rbuf) cell) : s.readByte t .rbuf j = cell[j] := by
  have := State.readByte_of_holds s t .rbuf 0 cell (State.holds_of_setRange s m .rbuf 0 cell (by simpa using h)) j hj
  simpa using this

/-- The tag of the cell reads as written, under every draw. -/
theorem State.tvTag_of_cell (s : State) (m : Memory) (content : List Byte) (tag : Half) (t : Nat) (hc : content.length ≤ 16)
    (h : s.mem = Memory.setRange m (Buffer.window .rbuf) (tvCell content tag)) : s.tvTag t = tag := by
  have h16 : (content ++ List.replicate (16 - content.length) (0 : Byte)).length = 16 := by simp; omega
  have l := tvCell_length content tag hc
  have a := s.readByte_of_cell m _ t 16 (by omega) h
  have b := s.readByte_of_cell m _ t 17 (by omega) h
  have x : (tvCell content tag)[16]'(by omega) = tag.extractLsb' 0 8 := by
    simp only [tvCell]
    rw [List.getElem_append_right (by omega)]
    simp only [h16, le16]
    rfl
  have y : (tvCell content tag)[17]'(by omega) = tag.extractLsb' 8 8 := by
    simp only [tvCell]
    rw [List.getElem_append_right (by omega)]
    simp only [h16, le16]
    rfl
  rw [State.tvTag, State.rd16le, a, b, x, y, le16_of_bytes]

/-! ### The text scan (R89) -/

/-- The scan stops at the first zero byte, or at the end. -/
theorem textLength_spec (l : List Byte) :
    textLength l ≤ l.length ∧ (∀ j (h : j < l.length), j < textLength l → l[j] ≠ 0) ∧
    (∀ h : textLength l < l.length, l[textLength l] = 0) := by
  induction l with
  | nil => simp [textLength]
  | cons a l ih =>
    by_cases ha : a = 0
    · subst ha; simp [textLength]
    · have e : textLength (a :: l) = textLength l + 1 := by
        rw [textLength, List.takeWhile_cons_of_pos (by simpa using ha), List.length_cons]; rfl
      simp only [e]
      refine ⟨by simpa using ih.1, fun j h hj => ?_, fun h => ?_⟩
      · cases j with
        | zero => exact ha
        | succ j => exact ih.2.1 j (by simpa using h) (by omega)
      · exact ih.2.2 (by simpa using h)

end Sys2Proof.Machine
end

