-- ==== Sys2Proof/Tests/Slice0.lean ====
section
/-! SUPPORT. The model's own tests. Expected values come from spec/95_test_vectors.md (the vector is named in each comment) or are
worked out by hand from the rule named; and for every statement with hypotheses there is a witness that meets them. -/

namespace Sys2Proof.Tests

open Sys2Proof Sys2Proof.Machine

-- One theorem at a time: elaborated side by side, the kernel evaluations below each hold a thread while they wait for the others.
set_option Elab.async false

/-! ### Helpers -/

/-- The state an outcome gives, or `d` if it gives none. -/
def after (d : State) : Host.Outcome State Fault Refusal → State
  | .next t => t
  | .fault _ => d
  | .refused _ => d

/-- Reset, with bytes written into a buffer. -/
def loaded (b : Buffer) (bs : List Byte) : State := State.reset.writeBytes b 0 bs

/-- The state after one command from `s`. -/
def ran (i : Instr) (s : State) : State := after State.reset (exec i s)

/-- Whether every byte of the buffer has been written and is as listed. -/
def holds (s : State) (b : Buffer) (bs : List Byte) : Bool :=
  (List.range bs.length).all fun j => decide (s.mem.byteAt (b.window + j) = bs[j]?)

/-- Reset, with the host about to make the listed accesses. -/
def hostAt (q : List HostOp) : State := { State.reset with hostQueue := q }

/-- The same while TVCLR is pending, and it is the host's turn. -/
def busyAt (q : List HostOp) : State :=
  { State.reset with cmd := 0x10, pending := some 0x10, turns := [.host], hostQueue := q }

/-- The same build with other parameters. -/
def built (maxPayload maxModules : Nat) : State :=
  State.resetOf { Config.vectors with maxPayloadSize := maxPayload, maxModules := maxModules }

def errOf (o : Host.Outcome State Fault Refusal) : Option Byte :=
  match o with
  | .next t => some t.errCode
  | .fault _ => none
  | .refused _ => none

/-- S1's record (95 section 1). -/
def s1Record : List Byte :=
  [0x34, 0x12, 0x00, 0x00, 0xC0, 0x3F, 0x00, 0x00, 0x20, 0x40, 0x00, 0x00, 0x60, 0x40, 0x00, 0x00, 0x90, 0x40, 0x64, 0x00,
   0xC8, 0x00, 0x2C, 0x01, 0x90, 0x01]

/-- S1's frame (95 section 1). -/
def s1Frame : List Byte := [0x02, 0x1A] ++ s1Record ++ [0xE0, 0x98]

/-- V-SER-2's record and frame. -/
def dscRecord : List Byte :=
  [0x02, 0x10, 0x00, 0x01, 0x0F, 0x00, 0x00, 0x00, 0x20, 0x00, 0x02, 0x01, 0x00, 0x00, 0x80] ++ List.replicate 14 0xAA
def dscFrame : List Byte :=
  [0x22, 0x1D, 0x02, 0x10, 0x00, 0x01, 0x0F, 0x00, 0x00, 0x00, 0x20, 0x00, 0x02, 0x01, 0x00, 0x00, 0x80] ++
    List.replicate 14 0 ++ [0xC6, 0x0B]

/-- V-SER-3's record and frame. -/
def telRecord : List Byte :=
  [0xFB, 0xFF, 0xFF, 0xFF] ++ List.replicate 12 0 ++ [0x01, 0x00, 0x02, 0x01, 0x44, 0x33, 0x22, 0x11]
def telFrame : List Byte := [0x42, 0x18] ++ telRecord ++ [0x3E, 0x73]

/-- V-SER-4's record and frame. -/
def setRecord : List Byte := [0x68, 0x65, 0x6C, 0x6C, 0x6F] ++ List.replicate 11 0 ++ [0x04, 0x00, 0x07, 0x00]
def setFrame : List Byte := [0x62, 0x14] ++ setRecord ++ [0x6F, 0x9C]

/-- V-SER-6's Float32 cell and frame. -/
def tvRecord : List Byte := [0x00, 0x00, 0x80, 0x3F] ++ List.replicate 12 0 ++ [0x03, 0x00]
def tvFrame : List Byte := [0x82, 0x12] ++ tvRecord ++ [0x09, 0xBA]

/-- A frame in FBUF with FLEN its length. -/
def received (f : List Byte) : State := { loaded .fbuf f with flen := BitVec.ofNat 16 f.length }

/-! ### WellFormed: an ill-formed term for each check, refused -/

theorem test_wf_vectors : Config.vectors.wf = true := by decide
theorem test_wf_sync : ({ Config.vectors with syncPattern := 0x20 } : Config).wf = false := by decide
theorem test_wf_payload : ({ Config.vectors with maxPayloadSize := 256 } : Config).wf = false := by decide
theorem test_wf_modules_zero : ({ Config.vectors with maxModules := 0 } : Config).wf = false := by decide
theorem test_wf_modules_many : ({ Config.vectors with maxModules := 256 } : Config).wf = false := by decide
theorem test_wf_base : ({ Config.vectors with base := 0x800 } : Config).wf = false := by decide

/-! ### Decode: each word written out from the fields of R52 and the map of R53 -/

theorem test_decode_ser :
    decodeWord 0b00000000000000000000_0_000_00000001#32 = .ok .serCmd ∧
    decodeWord 0b00000000000000000000_0_001_00000001#32 = .ok .serDsc ∧
    decodeWord 0b00000000000000000000_0_010_00000001#32 = .ok .serTel ∧
    decodeWord 0b00000000000000000000_0_011_00000001#32 = .ok .serSet ∧
    decodeWord 0b00000000000000000000_0_100_00000001#32 = .ok .serTv := by decide
theorem test_decode_des :
    decodeWord 0b00000000000000000000_0_000_00000010#32 = .ok .desCmd ∧
    decodeWord 0b00000000000000000000_0_001_00000010#32 = .ok .desDsc ∧
    decodeWord 0b00000000000000000000_0_010_00000010#32 = .ok .desTel ∧
    decodeWord 0b00000000000000000000_0_011_00000010#32 = .ok .desSet ∧
    decodeWord 0b00000000000000000000_0_100_00000010#32 = .ok .desTv := by decide
theorem test_decode_crc : decodeWord 0b00000000000000000000_0_000_00000011#32 = .ok .crc := by decide
theorem test_decode_pack :
    decodeWord 0b00000000000000000000_0_000_00010000#32 = .ok .tvclr ∧
    decodeWord 0b00000000000000000000_0_000_00010001#32 = .ok .tvpi32 ∧
    decodeWord 0b00000000000000000000_0_000_00010010#32 = .ok .tvpu16 ∧
    decodeWord 0b00000000000000000000_0_000_00010011#32 = .ok .tvpf32 ∧
    decodeWord 0b00000000000000000000_0_000_00010100#32 = .ok (.tvptxt false) ∧
    decodeWord 0b00000000000000000000_1_000_00010100#32 = .ok (.tvptxt true) := by decide
theorem test_decode_unpack :
    decodeWord 0b00000000000000000000_0_000_00011000#32 = .ok .tvgtag ∧
    decodeWord 0b00000000000000000000_0_000_00011001#32 = .ok .tvui32 ∧
    decodeWord 0b00000000000000000000_0_000_00011010#32 = .ok .tvuu16 ∧
    decodeWord 0b00000000000000000000_0_000_00011011#32 = .ok .tvuf32 ∧
    decodeWord 0b00000000000000000000_0_000_00011100#32 = .ok .tvutxt := by decide
/-- 95 section 2.5: the illegal words. -/
theorem test_decode_illegal :
    [0x0#32, 0x4, 0xF, 0x15, 0x17, 0x1D, 0xFF].all (fun w => decide (decodeWord w = .error .illegalOpcode)) = true ∧
    [0x501#32, 0x502, 0x701].all (fun w => decide (decodeWord w = .error .illegalKind)) = true ∧
    [0x103#32, 0x118, 0x114].all (fun w => decide (decodeWord w = .error .misplacedKind)) = true ∧
    [0x901#32, 0x803, 0x810].all (fun w => decide (decodeWord w = .error .misplacedNull)) = true ∧
    [0x1001#32, 0x80000003].all (fun w => decide (decodeWord w = .error .reservedBits)) = true := by decide
theorem test_table_word_too_wide : decodeTableWord 40 0x100000001 = none := by decide

/-! ### CRC (95 section 2.1, V-CRC-1 and V-CRC-2) -/

theorem test_crc16_check : crc16 [0x31, 0x32, 0x33, 0x34, 0x35, 0x36, 0x37, 0x38, 0x39] = 0x29B1 := by decide +kernel
theorem test_crc16_small : crc16 [0x00] = 0xE1F0 ∧ crc16 [0x80] = 0x7078 ∧ crc16 [0xFF, 0xFF] = 0 := by decide +kernel
theorem test_crc_range :
    (ran .crc { loaded .fbuf [0x31, 0x32, 0x33, 0x34, 0x35] with arg0 := 2, arg1 := 3 }).crcr = 0xFFCE := by decide +kernel
theorem test_crc_no_wrap :
    errOf (exec .crc { State.reset with arg0 := 0xFFFFFFFF, arg1 := 1 }) = some 8 ∧
    errOf (exec .crc { State.reset with arg0 := 68, arg1 := 0 }) = some 0 := by decide +kernel

/-! ### Serialize (95 sections 1 and 2.2) -/

theorem test_ser_cmd : holds (ran .serCmd (loaded .rbuf s1Record)) .fbuf s1Frame = true ∧
    (ran .serCmd (loaded .rbuf s1Record)).flen = 30 := by decide +kernel
theorem test_ser_dsc : holds (ran .serDsc (loaded .rbuf dscRecord)) .fbuf dscFrame = true ∧
    holds (ran .serDsc (loaded .rbuf dscRecord)) .rbuf dscRecord = true := by decide +kernel
theorem test_ser_tel : holds (ran .serTel (loaded .rbuf telRecord)) .fbuf telFrame = true := by decide +kernel
theorem test_ser_set : holds (ran .serSet (loaded .rbuf setRecord)) .fbuf setFrame = true := by decide +kernel
theorem test_ser_tv : holds (ran .serTv (loaded .rbuf tvRecord)) .fbuf tvFrame = true := by decide +kernel
/-- V-SER-8. -/
theorem test_ser_oversized :
    [Instr.serCmd, .serDsc, .serTel].all (fun i => decide (errOf (exec i (built 20 4)) = some 1)) = true ∧
    [Instr.serSet, .serTv].all (fun i => decide (errOf (exec i (built 20 4)) = some 0)) = true ∧
    errOf (exec .serDsc (built 64 10)) = some 1 := by decide +kernel
/-- V-SER-7, a count above MAX_MODULES. -/
theorem test_ser_dsc_count_above :
    holds (ran .serDsc ((built 64 1).writeBytes .rbuf 0 [0x05, 0xEF, 0xBE, 0x09, 0xEF, 0xBE, 0xAD, 0xDE])) .fbuf
      [0x22, 0x08, 0x05, 0xEF, 0xBE, 0x09, 0xEF, 0xBE, 0xAD, 0xDE, 0xED, 0xD2] = true := by decide +kernel

/-! ### Deserialize (95 section 2.3) -/

theorem test_des_cmd : holds (ran .desCmd (received s1Frame)) .rbuf s1Record = true ∧
    (ran .desCmd (received s1Frame)).errCode = 0 := by decide +kernel
theorem test_des_dsc : holds (ran .desDsc (received dscFrame)) .rbuf (dscRecord.take 15 ++ List.replicate 14 0) = true := by
  decide +kernel
theorem test_des_tel : holds (ran .desTel (received telFrame)) .rbuf telRecord = true := by decide +kernel
theorem test_des_set : holds (ran .desSet (received setFrame)) .rbuf setRecord = true := by decide +kernel
theorem test_des_tv : holds (ran .desTv (received tvFrame)) .rbuf tvRecord = true := by decide +kernel
/-- V-DES-2: the check order. -/
theorem test_des_order :
    errOf (exec .desCmd { State.reset with flen := 3 }) = some 2 ∧
    errOf (exec .desCmd { State.reset with flen := 69 }) = some 8 ∧
    errOf (exec .desCmd (received (0x03 :: List.replicate 67 0))) = some 3 ∧
    errOf (exec .desTel (received s1Frame)) = some 4 ∧
    errOf (exec .desCmd { received s1Frame with flen := 29 }) = some 5 ∧
    errOf (exec .desCmd (received (0x02 :: 0x19 :: List.replicate 27 0))) = some 6 ∧
    errOf (exec .desCmd (received [0x02, 0x00, 0x6D, 0x7B])) = some 6 := by decide +kernel
/-- V-DES-1: one flip of each class. -/
theorem test_des_flips :
    [(0, 0x12#8, 3#8), (0, 0x82, 4), (1, 0x9A, 5), (2, 0x35, 7), (27, 0x81, 7), (28, 0xE1, 7), (29, 0x18, 7)].all
      (fun x => decide (errOf (exec .desCmd (received (s1Frame.set x.1 x.2.1))) = some x.2.2)) = true := by decide +kernel

/-! ### TaggedValue (95 section 2.4) -/

theorem test_tvclr : holds (ran .tvclr State.reset) .rbuf (List.replicate 18 0) = true := by decide +kernel
theorem test_tvpi32 : holds (ran .tvpi32 { State.reset with arg0 := 0xFFFFFFFB }) .rbuf
    ([0xFB, 0xFF, 0xFF, 0xFF] ++ List.replicate 12 0 ++ [0x01, 0x00]) = true := by decide +kernel
theorem test_tvpu16 : holds (ran .tvpu16 { State.reset with arg0 := 0xDEADBEEF }) .rbuf
    ([0xEF, 0xBE] ++ List.replicate 14 0 ++ [0x02, 0x00]) = true := by decide +kernel
theorem test_tvpf32 : holds (ran .tvpf32 { State.reset with arg0 := 0x7FC00001 }) .rbuf
    ([0x01, 0x00, 0xC0, 0x7F] ++ List.replicate 12 0 ++ [0x03, 0x00]) = true := by decide +kernel
theorem test_tvptxt_truncates :
    let s := ran (.tvptxt false) { loaded .tstage (List.replicate 16 0x41) with arg1 := 16 }
    holds s .rbuf (List.replicate 15 0x41 ++ [0x00, 0x04, 0x00]) = true ∧ s.statusWord = 2 ∧
      s.notes = [{ severity := .warning, reason := 0x10 }] := by decide +kernel
theorem test_tvptxt_fits :
    let s := ran (.tvptxt false) { loaded .tstage (List.replicate 16 0x41) with arg1 := 15 }
    holds s .rbuf (List.replicate 15 0x41 ++ [0x00, 0x04, 0x00]) = true ∧ s.trunc = false ∧ s.notes = [] := by decide +kernel
theorem test_tvgtag : (ran .tvgtag (loaded .rbuf (List.replicate 16 0x41 ++ [0x07, 0x01]))).result = 0x107 := by
  decide +kernel
theorem test_tvui32 : (ran .tvui32 (loaded .rbuf ([0x00, 0x00, 0x00, 0x80] ++ List.replicate 12 0 ++ [0x01, 0x00]))).result =
    0x80000000 := by decide +kernel
theorem test_tvuu16 : (ran .tvuu16 (loaded .rbuf ([0xEF, 0xBE] ++ List.replicate 14 0xFF ++ [0x02, 0x00]))).result = 0xBEEF ∧
    (ran .tvuu16 (loaded .rbuf ([0xEF, 0xBE] ++ List.replicate 14 0 ++ [0x02, 0x01]))).result = 0 := by decide +kernel
/-- S5: an Int32 read as a float is 0. -/
theorem test_tvuf32 : (ran .tvuf32 (loaded .rbuf ([0x00, 0x00, 0x80, 0x3F] ++ List.replicate 12 0 ++ [0x01, 0x00]))).result = 0 ∧
    (ran .tvuf32 (loaded .rbuf tvRecord)).result = 0x3F800000 := by decide +kernel
theorem test_tvutxt : (ran .tvutxt (loaded .rbuf (List.replicate 16 0x41 ++ [0x07, 0x00]))).result = 16 ∧
    (ran .tvutxt (loaded .rbuf ([0x41, 0x42, 0x00, 0x43, 0x44] ++ List.replicate 11 0 ++ [0x04, 0x00]))).result = 2 := by
  decide +kernel

/-! ### Host access (95 section 2.6) -/

/-- The fault record of one host access, if any. -/
def faultOf (op : HostOp) : List (HostFaultReason × Nat) :=
  (after State.reset (step (hostAt [op]))).hfault.map fun r => (r.reason, r.offset)

theorem test_host_faults :
    faultOf (.read 0x002 .w16) = [(.badAccess, 0x002)] ∧ faultOf (.read 0x004 .w8) = [(.badAccess, 0x004)] ∧
    faultOf (.read 0x024 .w32) = [(.unmapped, 0x024)] ∧ faultOf (.write 0x110 .w8 1) = [(.unmapped, 0x110)] ∧
    faultOf (.write 0x242 .w32 1) = [(.badAccess, 0x242)] ∧ faultOf (.write 0x242 .w16 1) = [] ∧
    faultOf (.write 0x201 .w16 1) = [(.badAccess, 0x201)] ∧ faultOf (.write 0x440 .w32 1) = [(.unmapped, 0x440)] := by
  decide +kernel
theorem test_host_registers :
    (after State.reset (step (hostAt [.read 0x020 .w32]))).readLog = [{ offset := 0x020, width := .w32, value := 0x01044002 }] ∧
    (after State.reset (step (hostAt [.write 0x00C .w32 0xABCD1234]))).flen = 0x1234 ∧
    (after State.reset (step (hostAt [.write 0x004 .w32 0xFFFFFFFF]))).statusWord = 0 := by decide +kernel
/-- A word store into FBUF lands least significant byte first (R43). -/
theorem test_host_store : holds (after State.reset (step (hostAt [.write 0x200 .w32 0x11223344]))) .fbuf
    [0x44, 0x33, 0x22, 0x11] = true := by decide +kernel
/-- 95 section 2.6: BUSY with a TRUNC left over, no fault. -/
theorem test_host_status_busy :
    (after State.reset (step { busyAt [.read 0x004 .w32] with trunc := true })).readLog =
      [{ offset := 0x004, width := .w32, value := 3 }] ∧
    (after State.reset (step { busyAt [.read 0x004 .w32] with trunc := true })).hfault = [] := by decide +kernel
/-- P5's schedules A and B (95 section 3). -/
theorem test_schedules :
    let s : State := { hostAt [.write 0x010 .w32 7, .poll] with cmd := 0x10, pending := some 0x10, arg0 := 0x3F800000 }
    (after s (core.run 3 s)).arg0 = 7 ∧ (after s (core.run 3 s)).hfault = [] ∧
    (after s (core.run 3 { s with turns := [.host] })).arg0 = 0x3F800000 ∧
    (after s (core.run 3 { s with turns := [.host] })).hfault =
      [{ reason := .hazard, offset := 0x010, width := .w32, isWrite := true }] := by decide +kernel

/-! ### withFetchWord and illegal words -/

theorem test_fetch_word : (after State.reset (step (State.reset.withFetchWord 32 0x10))).mem.byteAt 0x400 = some 0 ∧
    (after State.reset (step (State.reset.withFetchWord 32 0x501))).errCode = 9 := by decide +kernel

/-! ### Witnesses: for each statement with hypotheses, a concrete state and operands that meet them together, one for each clause -/

theorem engineNext_issued (w : Nat) : (State.reset.withFetchWord 32 w).engineNext := ⟨rfl, .inl rfl⟩
theorem hostNext_at (q : List HostOp) : (hostAt q).hostNext := ⟨rfl, .inr ⟨rfl, rfl⟩⟩
theorem hostNext_busy (q : List HostOp) : (busyAt q).hostNext := ⟨rfl, .inl rfl⟩
/-- A state a run reaches: reset, then the warning of a truncating text, then a failing SER, then an ignored access. -/
def used : State :=
  { State.reset with
    cmd := 0x101, errCode := 1, mem := [(0x100, 0x41), (0x243, 0x07), (0x41C, 0x09)],
    notes := [{ severity := .warning, reason := 0x10 }, { severity := .error, reason := 1 }],
    hfault := [{ reason := .unmapped, offset := 0x24, width := .w32, isWrite := false }] }
theorem inv_used : used.Inv where
  memCanonical := by decide
  memMapped := by
    intro o v h
    have : o = 0x100 ∨ o = 0x243 ∨ o = 0x41C := by
      by_contra hn
      have h1 : ¬ 0x100 = o := by omega
      have h2 : ¬ 0x243 = o := by omega
      have h3 : ¬ 0x41C = o := by omega
      simp [used, Memory.byteAt, h1, h2, h3] at h
    rcases this with rfl | rfl | rfl
    · exact ⟨.tstage, 0, by decide, rfl⟩
    · exact ⟨.fbuf, 0x43, by decide, rfl⟩
    · exact ⟨.rbuf, 0x1C, by decide, rfl⟩
  errRange := by decide
  truncIsOk := by decide
  pendingIsCmd := by intro w h; cases h
  notesLegal := by
    intro n h
    rcases List.mem_cons.1 h with rfl | h
    · exact .inr ⟨rfl, rfl⟩
    · rcases List.mem_cons.1 h with rfl | h
      · exact .inl ⟨rfl, by decide, by decide⟩
      · cases h
  silentIfDisabled := by intro h; cases h
  hfaultSet := by decide

theorem witness_OpcodeMapWords : (0x15#32).toNat % 256 ∉ [0x01, 0x02, 0x03, 0x10, 0x11, 0x12, 0x13, 0x14, 0x18, 0x19, 0x1A, 0x1B,
    0x1C] := by decide
theorem witness_DecodeExactlyInvertsEncode :
    (Instr.tvptxt true).wf = true ∧ decodeWord 0x814 = .ok (.tvptxt true) ∧ encode (.tvptxt true) = 0x814 := by decide
theorem witness_HeaderPacksSyncAndKind :
    Config.vectors.syncPattern = 0x02 ∧ ({ Config.vectors with syncPattern := 0x1F } : Config).syncPattern ≤ 0x1F ∧
    encodeHeader { Config.vectors with syncPattern := 0x1F } 4 = 0x9F ∧ encodeHeader Config.vectors 7 = 0xE2 := by decide
theorem witness_RecordImagesRoundTrip :
    let tv : TvValue := { storage := List.replicate 16 0x41, tag := 7 }
    let m : ModuleInfo := { typeId := 0x10, instanceId := 1, capabilities := 0xF }
    (Record.discovery 9 [m, m, m, m]).wf Config.vectors = true ∧ (Record.telemetry tv 0x102 0x11223344).wf Config.vectors = true ∧
    (Record.settings tv 7).wf Config.vectors = true ∧ (Record.taggedValue tv).wf Config.vectors = true ∧
    s1Record.length = kindSize Config.vectors .command ∧ dscRecord.length = kindSize Config.vectors .discovery ∧
    recordOf Config.vectors .command s1Record = .command
      { type := 0x1234, w := 0x3FC00000, x := 0x40200000, y := 0x40600000, z := 0x40900000, s := 100, t := 200, u := 300,
        v := 400 } := by decide +kernel
theorem witness_DerivedSizesBounded :
    ({ Config.vectors with maxPayloadSize := 0, maxModules := 1 } : Config).wf = true ∧
    ({ Config.vectors with maxPayloadSize := 255, maxModules := 255 } : Config).wf = true := by decide
theorem witness_StepRunsPendingCommand :
    (State.reset.withFetchWord 32 0x401).engineNext ∧ (State.reset.withFetchWord 32 0x401).pending = some 0x401 ∧
    decodeWord 0x401 = .ok .serTv ∧ State.reset.cfg.wf = true := ⟨engineNext_issued _, by decide, by decide, by decide⟩
theorem witness_IllegalWordsCompleteWithNine :
    (State.reset.withFetchWord 32 0x1010).engineNext ∧ (State.reset.withFetchWord 32 0x1010).pending = some 0x1010 ∧
    (State.reset.withFetchWord 32 0x01C).engineNext ∧ (State.reset.withFetchWord 32 0x01C).pending = some 0x01C :=
  ⟨engineNext_issued _, by decide, engineNext_issued _, by decide⟩
theorem witness_ResetStepLeaves : ({ used with turns := [.reset] } : State).resetNext := ⟨by decide, rfl⟩
theorem witness_IllegalConfigurationRefused :
    step (built 256 4) = .refused .illegalConfiguration ∧ ¬ (256 ≤ 255) ∧ (built 255 255).cfg.wf = true :=
  ⟨rfl, by decide, by decide⟩
theorem witness_EveryStepKeepsInvariant :
    used.Inv ∧ step { used with turns := [.reset] } = .next (({ used with turns := [] } : State).assertReset) ∧
    step used = .next used := ⟨inv_used, rfl, rfl⟩
theorem witness_StepOnlyAppendsNotesAndFaults : ∃ t, step (State.reset.withFetchWord 32 0) = .next t ∧ t.notes ≠ [] :=
  ⟨_, rfl, by decide +kernel⟩
theorem witness_PendingCommandCompletes :
    let s := { busyAt [.poll, .write 0x010 .w32 7] with turns := [.host, .engine] }
    s.cfg.wf = true ∧ s.pending = some 0x10 ∧ Turn.reset ∉ s.turns ∧ ∀ op ∈ s.hostQueue, op.inRegion s.cfg := by
  refine ⟨by decide, rfl, by decide, ?_⟩
  intro op h
  rcases List.mem_cons.1 h with rfl | h
  · exact trivial
  · rcases List.mem_cons.1 h with rfl | h
    · exact ⟨by decide, by decide⟩
    · cases h
/-- A success, a truncation and a failure. -/
theorem witness_CompletionReportsOutcome :
    (∃ t, exec .tvclr State.reset = .next t ∧ t.errCode = 0) ∧
    (∃ t, exec (.tvptxt false) { State.reset with arg1 := 16 } = .next t ∧ t.trunc = true) ∧
    (∃ t, exec .desCmd State.reset = .next t ∧ t.errCode ≠ 0) :=
  ⟨⟨_, rfl, by decide +kernel⟩, ⟨_, rfl, by decide +kernel⟩, ⟨_, rfl, by decide +kernel⟩⟩
theorem witness_FailureLeavesOutputs :
    (∃ t, exec (serInstr .command) (built 20 4) = .next t ∧ t.errCode ≠ 0) ∧
    (∃ t, exec .crc { State.reset with arg0 := 69 } = .next t ∧ t.errCode ≠ 0) :=
  ⟨⟨_, rfl, by decide +kernel⟩, ⟨_, rfl, by decide +kernel⟩⟩
theorem witness_CommandsKeepOtherRegisters : (∃ t, exec .crc State.reset = .next t) ∧ Instr.crc ∉ [Instr.tvgtag, .tvui32,
    .tvuu16, .tvuf32, .tvutxt] ∧ (∀ k, Instr.crc ≠ serInstr k) := ⟨⟨_, rfl⟩, by decide, by intro k; cases k <;> decide⟩
/-- The byte on either side of each stored range, for SER.CMD, DES.CMD and TVCLR. -/
theorem witness_CommandsWriteOnlyNamedBytes :
    (∃ t, exec .serCmd (loaded .rbuf s1Record) = .next t) ∧
    (0x1FF < Buffer.window .fbuf ∧ Buffer.window .fbuf + 4 + kindSize Config.vectors .command ≤ 0x21E) ∧
    (∃ t, exec .desCmd (received s1Frame) = .next t) ∧
    (0x3FF < Buffer.window .rbuf ∧ Buffer.window .rbuf + kindSize Config.vectors .command ≤ 0x41A) ∧
    (∃ t, exec .tvclr State.reset = .next t) ∧ Buffer.window .rbuf + 18 ≤ 0x412 ∧
    (∃ t, exec .serCmd (built 20 4) = .next t ∧ t.errCode ≠ 0) :=
  ⟨⟨_, rfl⟩, by decide, ⟨_, rfl⟩, by decide, ⟨_, rfl⟩, by decide, _, rfl, by decide +kernel⟩
theorem witness_DisabledLogChangesNothingElse : ∃ t, exec .desCmd State.reset = .next t ∧ t.notes ≠ State.reset.notes :=
  ⟨_, rfl, by decide +kernel⟩
/-- Two states that differ in ERR, TRUNC, RESULT, CRCR, CMD and NOTES only. -/
theorem witness_ResultDependsOnOperandsOnly :
    let s₁ := State.reset
    let s₂ : State := { s₁ with cmd := 9, errCode := 7, trunc := true, result := 5, crcr := 6, notes := used.notes }
    s₁.cfg = s₂.cfg ∧ s₁.flen = s₂.flen ∧ s₁.arg0 = s₂.arg0 ∧ s₁.arg1 = s₂.arg1 ∧ s₁.mem = s₂.mem ∧ s₁.draws = s₂.draws ∧
    (∃ t, exec .crc s₁ = .next t ∧ t.errCode = 0) ∧ (∃ t, exec .crc s₂ = .next t) :=
  ⟨rfl, rfl, rfl, rfl, rfl, rfl, ⟨_, rfl, by decide +kernel⟩, ⟨_, rfl⟩⟩
/-- The last range inside FBUF and the first outside it. -/
theorem witness_CrcCommandChecksumsRange :
    (let s : State := { State.reset with arg0 := 67, arg1 := 1 }; s.arg0.toNat + s.arg1.toNat ≤ fbufSize s.cfg) ∧
    (let s : State := { State.reset with arg0 := 68, arg1 := 1 }; fbufSize s.cfg < s.arg0.toNat + s.arg1.toNat) := by decide
/-- A build in which a kind just fits, and one in which it just does not. -/
theorem witness_SerBuildsFrame :
    kindSize (built 26 4).cfg .command ≤ (built 26 4).cfg.maxPayloadSize ∧
    (built 25 4).cfg.maxPayloadSize < kindSize (built 25 4).cfg .command := by decide
theorem witness_SerFrameSizes : ∀ k, State.reset.cfg.wf = true ∧ ∃ t, exec (serInstr k) State.reset = .next t ∧ t.errCode = 0 :=
  fun k => ⟨by decide, by cases k <;> exact ⟨_, rfl, rfl⟩⟩
theorem witness_SerCommandHeaderIsSync : State.reset.cfg.wf = true ∧ ∃ t, exec .serCmd State.reset = .next t ∧ t.errCode = 0 :=
  ⟨by decide, _, rfl, rfl⟩
/-- V-SER-4's frame: its body is header, length and record, and its trailer their CRC. -/
theorem witness_DesAcceptsValidFrame :
    (received setFrame).cfg.wf = true ∧ setRecord.length = kindSize (received setFrame).cfg .settings ∧
    setRecord.length ≤ (received setFrame).cfg.maxPayloadSize ∧ (received setFrame).flen.toNat = 4 + setRecord.length ∧
    (let body := BitVec.ofNat 8 (Kind.settings.code.toNat * 32 + 0x02) :: BitVec.ofNat 8 setRecord.length :: setRecord
     holds (received setFrame) .fbuf (body ++ [(crc16 body).extractLsb' 0 8, (crc16 body).extractLsb' 8 8]) = true) := by
  decide +kernel
theorem witness_OversizedKindNeverWorks : ∀ k, (built 0 1).cfg.maxPayloadSize < kindSize (built 0 1).cfg k := by
  intro k; cases k <;> decide
/-- SER.SET of V-SER-4, and a state with the same FBUF bytes. -/
theorem witness_SerDesRoundTrip :
    State.reset.cfg.wf = true ∧ kindSize State.reset.cfg .settings ≤ State.reset.cfg.maxPayloadSize ∧
    (received setFrame).cfg = (ran .serSet (loaded .rbuf setRecord)).cfg ∧
    (received setFrame).flen = (ran .serSet (loaded .rbuf setRecord)).flen ∧
    (List.range 68).all (fun i => decide ((received setFrame).mem.byteAt (0x200 + i) =
      (ran .serSet (loaded .rbuf setRecord)).mem.byteAt (0x200 + i))) = true := by decide +kernel
/-- SER.DSC of V-SER-2, whose count 2 is below MAX_MODULES 4 and whose unused slots are not zero, and a state with its FBUF bytes. -/
theorem witness_SerDesRoundTrip_discovery :
    kindSize State.reset.cfg .discovery ≤ State.reset.cfg.maxPayloadSize ∧
    dscRecord.length = kindSize State.reset.cfg .discovery ∧ holds (loaded .rbuf dscRecord) .rbuf dscRecord = true ∧
    (dscRecord.headD 0).toNat < State.reset.cfg.maxModules ∧ dscRecord.getD (1 + 7 * 2) 0 ≠ 0 ∧
    (received dscFrame).cfg = (ran .serDsc (loaded .rbuf dscRecord)).cfg ∧
    (received dscFrame).flen = (ran .serDsc (loaded .rbuf dscRecord)).flen ∧
    (List.range 68).all (fun i => decide ((received dscFrame).mem.byteAt (0x200 + i) =
      (ran .serDsc (loaded .rbuf dscRecord)).mem.byteAt (0x200 + i))) = true := by decide +kernel
theorem witness_KindIsolation :
    State.reset.cfg.wf = true ∧ Kind.settings ≠ .command ∧
    (∃ t, exec (serInstr .settings) (loaded .rbuf setRecord) = .next t ∧ t.errCode = 0 ∧
      (received setFrame).cfg = t.cfg ∧ (received setFrame).flen = t.flen ∧
      (List.range 68).all (fun i => decide ((received setFrame).mem.byteAt (0x200 + i) = t.mem.byteAt (0x200 + i))) = true) :=
  ⟨by decide, by decide, _, rfl, by decide +kernel⟩
/-- A flip in the header's pattern, in its kind, in the length, in the payload and in the trailer of V-SER-4's frame. -/
theorem witness_SingleBitCorruptionDetected :
    ∃ t, exec (serInstr .settings) (loaded .rbuf setRecord) = .next t ∧ t.errCode = 0 ∧ setFrame.length = t.flen.toNat ∧
      holds t .fbuf setFrame = true ∧
      [(0, 4), (0, 5), (1, 0), (2, 7), (23, 7)].all (fun x => decide (x.1 < setFrame.length ∧ x.2 < 8 ∧
        (received (setFrame.set x.1 (setFrame.getD x.1 0 ^^^ (1#8 <<< x.2)))).flen = t.flen)) = true :=
  ⟨_, rfl, by decide +kernel⟩
theorem witness_CrcCommandMatchesTrailer :
    ∃ t, exec (serInstr .settings) (loaded .rbuf setRecord) = .next t ∧ t.errCode = 0 ∧
      (let t' : State := { t with arg0 := 0, arg1 := 22 }
       t'.cfg = t.cfg ∧ t'.arg0 = 0 ∧ t'.arg1.toNat = t.flen.toNat - 2) := ⟨_, rfl, by decide +kernel⟩
theorem witness_TvCommandsNeverFailAndStayInFrame :
    Instr.tvclr ∈ [Instr.tvclr, .tvpi32, .tvpu16, .tvpf32, .tvptxt false, .tvptxt true] ∧
    Instr.tvutxt ∈ [Instr.tvgtag, .tvui32, .tvuu16, .tvuf32, .tvutxt] := by decide
theorem witness_WriteToCmdIssues :
    (hostAt [.write 0x000 .w32 0x1010]).hostNext ∧ (hostAt [.write 0x000 .w32 0x1010]).pending = none ∧
    (hostAt [.write 0x000 .w32 0x1010]).hostQueue = [.write (Config.vectors.base + 0x000) .w32 0x1010] :=
  ⟨hostNext_at _, rfl, rfl⟩
theorem witness_RegisterWritesStoreDefinedFields :
    ∀ off ∈ [0x004, 0x008, 0x00C, 0x010, 0x014, 0x018, 0x01C, 0x020],
      (hostAt [.write (Config.vectors.base + off) .w32 7]).hostNext ∧
      (hostAt [.write (Config.vectors.base + off) .w32 7]).pending = none := fun _ _ => ⟨hostNext_at _, rfl⟩
/-- An idle read, and the two reads allowed while a command is pending. -/
theorem witness_RegisterReadsReturnFields :
    ((hostAt [.read 0x00C .w32]).hostNext ∧ (hostAt [.read 0x00C .w32]).pending = none) ∧
    ((busyAt [.read 0x004 .w32]).hostNext ∧ (busyAt [.read 0x004 .w32]).pending ≠ none) ∧
    (busyAt [.read 0x020 .w32]).hostNext :=
  ⟨⟨hostNext_at _, rfl⟩, ⟨hostNext_busy _, by decide⟩, hostNext_busy _⟩
/-- The last half of FBUF, legal; the word there, which spills; and a misaligned one. -/
theorem witness_BufferAccessesLittleEndianOrRefused :
    (hostAt [.read (Config.vectors.base + (Buffer.window .fbuf + 66)) .w16]).hostNext ∧ 66 < Buffer.size Config.vectors .fbuf ∧
    ((Buffer.window .fbuf + 66) % Width.bytes .w16 = 0 ∧ 66 + Width.bytes .w16 ≤ Buffer.size Config.vectors .fbuf) ∧
    ¬ (66 + Width.bytes .w32 ≤ Buffer.size Config.vectors .fbuf) ∧ ¬ ((Buffer.window .fbuf + 1) % Width.bytes .w16 = 0) ∧
    (hostAt [.write (Config.vectors.base + (Buffer.window .fbuf + 66)) .w32 1]).hostNext :=
  ⟨hostNext_at _, by decide, by decide, by decide, by decide, hostNext_at _⟩
/-- A byte at the last register offset, a word at 0x002, and a word at 0x021, which reaches past PARAM to the unmapped 0x024. -/
theorem witness_RegisterAccessesMustBeWords :
    (hostAt [.read 0x023 .w8]).hostNext ∧ (hostAt [.read 0x023 .w8]).pending = none ∧ ¬ (Width.w8 = .w32 ∧ 4 ∣ 0x023) ∧
    (hostAt [.write 0x002 .w32 1]).hostNext ∧ ¬ (Width.w32 = .w32 ∧ 4 ∣ 0x002) ∧
    (hostAt [.read 0x021 .w32]).hostNext ∧ (hostAt [.read 0x021 .w32]).pending = none ∧ 0x021 < 0x24 ∧
    ¬ (Width.w32 = .w32 ∧ 4 ∣ 0x021) ∧ ¬ (0x021 + Width.bytes .w32 ≤ 0x24) :=
  ⟨hostNext_at _, rfl, by decide, hostNext_at _, by decide, hostNext_at _, rfl, by decide, by decide, by decide⟩
/-- The first unmapped offset after the registers, and the one after FBUF. -/
theorem witness_UnmappedAccessesRecorded :
    (hostAt [.read 0x024 .w32]).hostNext ∧ (hostAt [.write 0x244 .w32 1]).hostNext ∧
    ¬ Mapped Config.vectors 0x024 ∧ ¬ Mapped Config.vectors 0x244 := by
  refine ⟨hostNext_at _, hostNext_at _, ?_, ?_⟩ <;> rintro ⟨b, i, hi, ho⟩ <;> cases b <;>
    simp [Buffer.size, Buffer.window, fbufSize, rbufSize, Config.vectors] at hi ho <;> omega
theorem witness_AccessWhileBusyIsHazard :
    (busyAt [.write 0x000 .w32 3]).hostNext ∧ (busyAt [.write 0x000 .w32 3]).pending ≠ none ∧
    (busyAt [.read 0x004 .w8]).hostNext ∧ ¬ (Width.w8 = .w32 ∧ (0x004 = 0x004 ∨ 0x004 = 0x020)) :=
  ⟨hostNext_busy _, by decide, hostNext_busy _, by decide⟩
theorem witness_HostReadsHaveNoSideEffect :
    (hostAt [.read 0x400 .w8]).hostNext ∧ (∃ t, step (hostAt [.read 0x400 .w8]) = .next t) ∧
    (busyAt [.poll]).hostNext ∧ (∃ t, step (busyAt [.poll]) = .next t) :=
  ⟨hostNext_at _, ⟨_, rfl⟩, hostNext_busy _, ⟨_, rfl⟩⟩
theorem witness_PollEndsExactlyWhenIdle :
    ((hostAt [.poll]).hostNext ∧ (hostAt [.poll]).pending = none) ∧ ((busyAt [.poll]).hostNext ∧ (busyAt [.poll]).pending ≠ none) :=
  ⟨⟨hostNext_at _, rfl⟩, hostNext_busy _, by decide⟩
/-- A byte of the run, and its neighbour in the next buffer. -/
theorem witness_WrittenBytesReadBack : 0 < [0x41#8].length ∧
    (Buffer.window .tstage + 15 + [0x41#8].length ≤ Buffer.window .fbuf + 0) := by decide
/-- The first address above the region, and one below a region placed higher. -/
theorem witness_AccessOutsideRegionStops :
    ((hostAt [.read 0x1000 .w32]).hostNext ∧ Config.vectors.base + 4096 ≤ 0x1000) ∧
    (let s : State := { State.resetOf { Config.vectors with base := 0x1000 } with hostQueue := [.write 0xFFF .w8 1] }
     s.hostNext ∧ 0xFFF < s.cfg.base) :=
  ⟨⟨hostNext_at _, by decide⟩, ⟨⟨by decide, .inr ⟨rfl, rfl⟩⟩, by decide⟩⟩

end Sys2Proof.Tests
end

section
/-! SUPPORT. The proofs about the build parameters (00_scope.md R6 to R9): the derived sizes, the refusal of an illegal build, and
the kinds too large for a build. -/

namespace Sys2Proof.Machine

/-! ### Decode after encode (R53, R55) -/

/-- The word of a command decodes to it. -/
@[simp] theorem decodeWord_encode (i : Instr) : decodeWord (encode i) = .ok i := by
  cases i with
  | tvptxt n => cases n <;> rfl
  | _ => rfl

/-! ### Kinds too large for the build (R9) -/

/-- The codes of R115 are all distinct from 0, the code of a success (R117). -/
theorem ErrCode.code_ne_zero (c : ErrCode) : c.code ≠ 0 := by
  cases c <;> decide

/-- SER of an oversized kind completes with OversizedPayload (R91). -/
theorem exec_ser_oversized (k : Kind) (s : State) (h : s.cfg.maxPayloadSize < kindSize s.cfg k) :
    ∃ t, exec (serInstr k) s = .next t ∧ t.errCode = 1 := by
  refine ⟨_, exec_ser k s, ?_⟩
  rw [State.ser_oversized k s h, State.complete_err_errCode]
  rfl

/-- DES of an oversized kind fails: a frame it accepted would not fit in FBUF (R97). -/
theorem exec_des_oversized (k : Kind) (s : State) (h : s.cfg.maxPayloadSize < kindSize s.cfg k) :
    ∃ t, exec (desInstr k) s = .next t ∧ t.errCode ≠ 0 := by
  refine ⟨_, exec_des k s, ?_⟩
  rcases s.des_cases k with ⟨c, d, -, -, hdes⟩ | ⟨-, hfits, -⟩
  · rw [hdes, State.complete_err_errCode]
    exact c.code_ne_zero
  · simp only [fbufSize] at hfits
    omega

/-- Settles O29: the words decode whatever the build, SER takes its first branch, and no frame of the kind fits in FBUF. -/
theorem oversizedKindNeverWorks : Obligations.OversizedKindNeverWorks := fun k s h =>
  ⟨decodeWord_encode _, decodeWord_encode _, exec_ser_oversized k s h, exec_des_oversized k s h⟩

/-! ### A step refuses illegal builds only (R6, R7) -/

/-- The check of a build is the legal ranges of R6. -/
theorem Config.wf_iff (c : Config) : c.wf = true ↔
    c.syncPattern ≤ 0x1F ∧ c.maxPayloadSize ≤ 255 ∧ 1 ≤ c.maxModules ∧ c.maxModules ≤ 255 ∧ 4096 ∣ c.base := by
  simp [Config.wf, and_assoc, Nat.dvd_iff_mod_eq_zero]

/-- Every command goes on (R114). -/
theorem exec_next (i : Instr) (s : State) : ∃ t, exec i s = .next t := by
  rcases exec_cases i s with ⟨_, _, e⟩ | ⟨_, _, e⟩ | ⟨_, e⟩ | ⟨_, _, _, _, e⟩ | ⟨_, e⟩ | ⟨_, _, _, e⟩
  · exact ⟨_, e⟩
  · exact ⟨_, e⟩
  · exact ⟨_, e⟩
  · exact ⟨_, e s rfl⟩
  · exact ⟨_, e⟩
  · exact ⟨_, e s rfl rfl⟩

/-- Every word goes on, a command or not (R55). -/
theorem executeWord_next (w : Word) (s : State) : ∃ t, executeWord w s = .next t := by
  unfold executeWord
  split
  · exact exec_next _ s
  · exact ⟨_, rfl⟩

/-- The engine's step always goes on (R31, R114). -/
theorem engineStep_next (s : State) : ∃ t, engineStep s = .next t := by
  unfold engineStep
  split
  · exact executeWord_next _ s
  · exact ⟨_, rfl⟩

/-- The host's step goes on or stops with a fault. -/
theorem hostStep_ne_refused (s : State) (r : Refusal) : hostStep s ≠ .refused r := by
  unfold hostStep
  split
  · simp
  · split <;> simp
  · split <;> simp
  · dsimp only
    split <;> simp

/-- No agent's step is a refusal. -/
theorem runTurn_ne_refused (a : Turn) (s : State) (r : Refusal) : runTurn a s ≠ .refused r := by
  cases a with
  | host => exact hostStep_ne_refused s r
  | engine =>
    obtain ⟨t, ht⟩ := engineStep_next s
    simp [runTurn, ht]
  | reset => simp [runTurn]

/-- A step is refused exactly in an illegal build. -/
theorem step_refused_iff (s : State) : step s = .refused .illegalConfiguration ↔ ¬ s.cfg.wf = true := by
  refine ⟨fun hstep hwf => ?_, fun hwf => step_of_not_wf s (Bool.not_eq_true _ ▸ hwf)⟩
  rw [step_of_wf s hwf] at hstep
  exact runTurn_ne_refused _ _ _ hstep

/-- Settles O9: a legal build's step is some agent's step, and none of these refuses. -/
theorem illegalConfigurationRefused : Obligations.IllegalConfigurationRefused := fun s =>
  (step_refused_iff s).trans (not_congr (Config.wf_iff s.cfg))

/-! ### The derived sizes (R8) -/

/-- Only Discovery can outgrow the Command record. -/
theorem rbufSize_eq_max (c : Config) : rbufSize c = max (kindSize c .command) (kindSize c .discovery) := by
  simp only [rbufSize, kindSize]
  omega

theorem kindSize_le_rbufSize (c : Config) (k : Kind) : kindSize c k ≤ rbufSize c := by
  cases k <;> simp only [rbufSize, kindSize] <;> omega

theorem exists_kindSize_eq_rbufSize (c : Config) : ∃ k, kindSize c k = rbufSize c := by
  rw [rbufSize_eq_max]
  rcases le_total (kindSize c .command) (kindSize c .discovery) with h | h
  · exact ⟨.discovery, (max_eq_right h).symm⟩
  · exact ⟨.command, (max_eq_left h).symm⟩

theorem fbufSize_eq (c : Config) : fbufSize c = 4 + c.maxPayloadSize := by
  unfold fbufSize
  omega

theorem rbufSize_le (c : Config) (h : c.maxModules ≤ 255) : rbufSize c ≤ 1786 := by
  simp only [rbufSize_eq_max, kindSize]
  omega

/-- Settles O5: the sizes by definition, their bounds from the legal ranges. -/
theorem derivedSizesBounded : Obligations.DerivedSizesBounded := by
  intro c hwf
  obtain ⟨-, hpay, -, hmod, -⟩ := Config.wf_bounds c hwf
  have hfbuf : fbufSize c ≤ 259 := by rw [fbufSize_eq]; omega
  exact ⟨fbufSize_eq c, hfbuf, rbufSize_le c hmod, rfl, rfl, rfl, rfl, rfl, kindSize_le_rbufSize c,
    exists_kindSize_eq_rbufSize c⟩

end Sys2Proof.Machine
end

section
/-! SUPPORT. The proofs about what leaves the state as it is: the buffer bytes a command stores (R27), and the issue of a command
word (R30). -/

namespace Sys2Proof.Machine

/-! ### The bytes a command stores (R27) -/

/-- The store the rule of a command names: `n` bytes from byte 0 of the buffer on. A command with no case here stores nothing. -/
inductive StoresTo (c : Config) : Instr → Buffer → Nat → Prop where
  | ser (k : Kind) : StoresTo c (serInstr k) .fbuf (4 + kindSize c k)
  | des (k : Kind) : StoresTo c (desInstr k) .rbuf (kindSize c k)
  | pack (i : Instr) (h : i ∈ [Instr.tvclr, .tvpi32, .tvpu16, .tvpf32, .tvptxt false, .tvptxt true]) :
    StoresTo c i .rbuf 18

/-- A command leaves the buffers as they are, or succeeds and makes exactly the store its rule names. -/
theorem exec_mem_cases (i : Instr) (s t : State) (h : exec i s = .next t) :
    t.mem = s.mem ∨
    (t.errCode = 0 ∧ ∃ b bs, StoresTo s.cfg i b bs.length ∧ t.mem = s.mem.setRange b.window bs) := by
  rcases exec_inversion i s t h with ⟨k, rfl, hser⟩ | ⟨k, rfl, hdes⟩ | ⟨-, hcrc⟩ | ⟨hi, cell, hcell, rfl⟩ |
    ⟨rfl, cell, hcell, htext⟩ | ⟨-, v, d, rfl⟩
  · rcases hser with ⟨-, rfl⟩ | ⟨-, f, hf, rfl⟩
    · exact .inl rfl
    · exact .inr ⟨rfl, .fbuf, f, hf ▸ .ser k, rfl⟩
  · rcases hdes with ⟨c, d, -, -, rfl⟩ | ⟨-, -, p, d, hp, rfl⟩
    · exact .inl rfl
    · exact .inr ⟨rfl, .rbuf, p, hp ▸ .des k, rfl⟩
  · rcases hcrc with rfl | ⟨v, d, rfl⟩ <;> exact .inl rfl
  · have hmem : i ∈ [Instr.tvclr, .tvpi32, .tvpu16, .tvpf32, .tvptxt false, .tvptxt true] := by
      simp only [List.mem_cons] at hi ⊢
      tauto
    have hpack : StoresTo s.cfg i .rbuf cell.length := hcell ▸ .pack i hmem
    exact .inr ⟨rfl, .rbuf, cell, hpack, rfl⟩
  · have hpack : StoresTo s.cfg (.tvptxt false) .rbuf cell.length := hcell ▸ .pack _ (by decide)
    rcases htext with ⟨-, rfl⟩ | ⟨-, rfl⟩ <;> exact .inr ⟨rfl, .rbuf, cell, hpack, rfl⟩
  · exact .inl rfl

/-- Settles O18: a command that fails stores nothing, and what one that succeeds stores lies in the range its rule names. -/
theorem commandsWriteOnlyNamedBytes : Obligations.CommandsWriteOnlyNamedBytes := by
  intro i s t h o
  rcases exec_mem_cases i s t h with hmem | ⟨hok, b, bs, hst, hmem⟩
  · exact ⟨fun _ _ _ => by rw [hmem], fun _ => by rw [hmem]⟩
  · refine ⟨fun hser hdes hpack => ?_, fun herr => absurd hok herr⟩
    have houtside : o < b.window ∨ b.window + bs.length ≤ o := by
      generalize bs.length = n at hst ⊢
      cases hst with
      | ser k => simpa only [Nat.add_assoc] using hser k rfl
      | des k => exact hdes k rfl
      | pack _ hi => exact hpack hi
    rw [hmem, Memory.byteAt_setRange_outside _ _ _ _ houtside]

/-! ### Issuing a command word (R30) -/

/-- While nothing is pending, a 4-byte write to a register's offset is the register's own write (R38, R41). -/
theorem State.hostWrite_register (s : State) (o : Nat) (v : Word) (hpend : s.pending = none) (ho : o < 0x24)
    (halign : o % 4 = 0) : s.hostWrite o .w32 v = s.writeReg (regAt (o / 4)) v := by
  have hjudge : s.judge o .w32 true = .ok (.register (regAt (o / 4))) := by
    rw [State.judge_idle s o .w32 true hpend, classify, if_pos ho, if_pos ⟨rfl, halign⟩]
  simp only [State.hostWrite, hjudge]

/-- Settles O46: the write lands on CMD whatever the word, and writing CMD issues it. -/
theorem writeToCmdIssues : Obligations.WriteToCmdIssues := by
  intro s v rest hhost hpend hqueue
  rw [step_host_write s 0x000 .w32 v rest hhost (by decide) hqueue,
    State.hostWrite_register s.useTurn 0x000 v hpend (by decide) (by decide)]
  rfl

end Sys2Proof.Machine
end

section
/-! SUPPORT. The proofs about the host's port (20_memory.md): what its writes to the registers leave (R41, R42). -/

namespace Sys2Proof.Machine

/-! ### Writes to the registers (R41, R42) -/

/-- Every register lies in the register range of R35, at a word's offset. -/
theorem Reg.offset_bounds (r : Reg) : r.offset < 0x24 ∧ r.offset % 4 = 0 := by cases r <;> decide

/-- The register at a register's offset is that register (R35). -/
@[simp] theorem regAt_offset (r : Reg) : regAt (r.offset / 4) = r := by cases r <;> rfl

/-- A register write commutes with the end of the host's turn: no register holds the turns or the queue. -/
theorem State.writeReg_hostMoved (s : State) (r : Reg) (v : Word) (rest : List HostOp) :
    { s.useTurn.writeReg r v with hostQueue := rest } = (s.hostMoved rest).writeReg r v := by cases r <;> rfl

/-- While nothing is pending, the host's 4-byte write to a register is that register's own write (R38, R41). -/
theorem step_host_writeReg (s : State) (r : Reg) (v : Word) (rest : List HostOp) (hhost : s.hostNext)
    (hpend : s.pending = none) (hqueue : s.hostQueue = .write (s.cfg.base + r.offset) .w32 v :: rest) :
    step s = .next ((s.hostMoved rest).writeReg r v) := by
  obtain ⟨hrange, halign⟩ := r.offset_bounds
  rw [step_host_write s r.offset .w32 v rest hhost (by omega) hqueue,
    State.hostWrite_register s.useTurn r.offset v hpend hrange halign, regAt_offset, State.writeReg_hostMoved]

/-- A read-only register ignores a write (R41). -/
theorem State.writeReg_readOnly (s : State) (r : Reg) (v : Word)
    (hr : r ∈ [Reg.status, .err, .result, .crcr, .param]) : s.writeReg r v = s := by
  cases r with
  | status | err | result | crcr | param => rfl
  | cmd | flen | arg0 | arg1 => exact absurd hr (by decide)

/-- FLEN keeps the low half of the word written (R42). -/
theorem State.writeReg_flen (s : State) (v : Word) : s.writeReg .flen v = { s with flen := v.setWidth 16 } := by
  rw [BitVec.setWidth_eq_extractLsb' (by decide)]
  rfl

/-- Settles O47: each offset is a register's, so the step is that register's own write. -/
theorem registerWritesStoreDefinedFields : Obligations.RegisterWritesStoreDefinedFields := by
  intro s off v rest hhost hpend hqueue
  have hstep : ∀ r : Reg, off = r.offset → step s = .next ((s.hostMoved rest).writeReg r v) :=
    fun r hoff => step_host_writeReg s r v rest hhost hpend (hoff ▸ hqueue)
  refine ⟨fun hmem => ?_, fun hoff => ?_, hstep .arg0, hstep .arg1⟩
  · change off ∈ [Reg.status, .err, .result, .crcr, .param].map Reg.offset at hmem
    obtain ⟨r, hr, hoff⟩ := List.mem_map.1 hmem
    rw [hstep r hoff.symm, State.writeReg_readOnly _ r v hr]
  · rw [hstep .flen hoff, State.writeReg_flen]

end Sys2Proof.Machine
end

section
/-! SUPPORT. The proofs about the encodings (30_encoding.md): a word is accepted exactly when it is a command's own (R53, R55),
what the engine does with a word of either sort (R56), and the header byte as a number (R62). -/

namespace Sys2Proof

/-! ### Encode after decode (R53, R55) -/

/-- The word of an SER command carries its kind's code (R53). -/
theorem encode_serInstr (k : Kind) : encode (serInstr k) = commandWord 0x01 k.code false := by cases k <;> rfl

/-- The word of a DES command carries its kind's code (R53). -/
theorem encode_desInstr (k : Kind) : encode (desInstr k) = commandWord 0x02 k.code false := by cases k <;> rfl

/-- A kind is named by its own code only (R61). -/
theorem code_of_kindOfCode (c : BitVec 3) (k : Kind) (h : kindOfCode c = some k) : k.code = c := by
  revert c
  cases k <;> decide

/-- A command that takes neither KIND nor N is encoded with both 0 (R53). -/
theorem encode_of_plainInstr (op : BitVec 8) (i : Instr) (h : plainInstr op = some i) :
    encode i = commandWord op 0 false := by
  have hall : ∀ op : BitVec 8, ∀ i ∈ plainInstr op, encode i = commandWord op 0 false := by decide
  exact hall op i h

/-- What each branch of R55 that accepts a word has checked of its fields. -/
theorem decodeWord_ok_fields (w : Word) (i : Instr) (h : decodeWord w = .ok i) :
    reservedField w = 0 ∧
    ((∃ k, kindOfCode (kindField w) = some k ∧ nullField w = false ∧
        (opField w = 0x01 ∧ i = serInstr k ∨ opField w = 0x02 ∧ i = desInstr k)) ∨
      (opField w = 0x14 ∧ kindField w = 0 ∧ i = .tvptxt (nullField w)) ∨
      (plainInstr (opField w) = some i ∧ kindField w = 0 ∧ nullField w = false)) := by
  simp only [decodeWord] at h
  split at h
  · cases h
  next hres =>
  refine ⟨not_not.1 hres, ?_⟩
  split at h
  next hop =>
    refine .inl ?_
    split at h
    · cases h
    next k hk =>
    split at h
    · cases h
    next hnull =>
    refine ⟨k, hk, Bool.eq_false_of_not_eq_true hnull, ?_⟩
    split at h
    next hser => exact .inl ⟨hser, (Except.ok.inj h).symm⟩
    next hser => exact .inr ⟨hop.resolve_left hser, (Except.ok.inj h).symm⟩
  next =>
  refine .inr ?_
  split at h
  next hop =>
    split at h
    · cases h
    next hkind => exact .inl ⟨hop, not_not.1 hkind, (Except.ok.inj h).symm⟩
  next =>
    split at h
    · cases h
    next hplain =>
    split at h
    · cases h
    next hkind =>
    split at h
    · cases h
    next hnull => exact .inr ⟨Except.ok.inj h ▸ hplain, not_not.1 hkind, Bool.eq_false_of_not_eq_true hnull⟩

/-- An accepted word is put together again from the fields its branch of R55 has checked. -/
theorem eq_encode_of_decodeWord (w : Word) (i : Instr) (h : decodeWord w = .ok i) : w = encode i := by
  obtain ⟨hres, hfields⟩ := decodeWord_ok_fields w i h
  rw [← commandWord_of_fields w hres]
  rcases hfields with ⟨k, hk, hnull, ⟨hop, rfl⟩ | ⟨hop, rfl⟩⟩ | ⟨hop, hkind, rfl⟩ | ⟨hplain, hkind, hnull⟩
  · rw [hop, hnull, ← code_of_kindOfCode _ k hk, encode_serInstr]
  · rw [hop, hnull, ← code_of_kindOfCode _ k hk, encode_desInstr]
  · rw [hop, hkind]
    rfl
  · rw [hkind, hnull, encode_of_plainInstr _ i hplain]

/-- The words that decode to a command are that command's encoding and no other. -/
theorem decodeWord_eq_ok_iff (w : Word) (i : Instr) : decodeWord w = .ok i ↔ w = encode i :=
  ⟨eq_encode_of_decodeWord w i, fun h => h ▸ Machine.decodeWord_encode i⟩

/-! ### The 22 legal words (R53) -/

/-- Every command, in the order of the opcode map. -/
def commands : List Instr :=
  [.serCmd, .serDsc, .serTel, .serSet, .serTv, .desCmd, .desDsc, .desTel, .desSet, .desTv, .crc, .tvclr, .tvpi32, .tvpu16,
    .tvpf32, .tvptxt false, .tvptxt true, .tvgtag, .tvui32, .tvuu16, .tvuf32, .tvutxt]

theorem mem_commands (i : Instr) : i ∈ commands := by
  cases i with
  | tvptxt n => cases n <;> decide
  | _ => decide

/-- The legal words, as numbers. -/
def legalWords : List Nat := commands.map fun i => (encode i).toNat

/-- A word is legal exactly when it decodes to a command. -/
theorem mem_legalWords_iff (w : Word) : w.toNat ∈ legalWords ↔ ∃ i, decodeWord w = .ok i := by
  simp only [legalWords, List.mem_map, decodeWord_eq_ok_iff, BitVec.toNat_inj, mem_commands, true_and, eq_comm (a := w)]

/-- A word that is not legal is rejected (R55). -/
theorem decodeWord_error_of_not_legal (w : Word) (h : w.toNat ∉ legalWords) : ∃ e, decodeWord w = .error e := by
  cases hw : decodeWord w with
  | ok i => exact absurd ((mem_legalWords_iff w).2 ⟨i, hw⟩) h
  | error e => exact ⟨e, rfl⟩

/-- The OP values of the map (R53). -/
def opcodes : List Nat := [0x01, 0x02, 0x03, 0x10, 0x11, 0x12, 0x13, 0x14, 0x18, 0x19, 0x1A, 0x1B, 0x1C]

/-- The low byte of a legal word is in the map. -/
theorem opcode_of_mem_legalWords : ∀ n ∈ legalWords, n % 256 ∈ opcodes := by decide

end Sys2Proof

namespace Sys2Proof.Machine

/-- Settles O1: the words written out are the encodings of their commands, and a legal word has its low byte in the map. -/
theorem opcodeMapWords : Obligations.OpcodeMapWords :=
  ⟨decodeWord_encode .serCmd, decodeWord_encode .serDsc, decodeWord_encode .serTel, decodeWord_encode .serSet,
    decodeWord_encode .serTv, decodeWord_encode .desCmd, decodeWord_encode .desDsc, decodeWord_encode .desTel,
    decodeWord_encode .desSet, decodeWord_encode .desTv, decodeWord_encode .crc, decodeWord_encode .tvclr,
    decodeWord_encode .tvpi32, decodeWord_encode .tvpu16, decodeWord_encode .tvpf32, decodeWord_encode (.tvptxt false),
    decodeWord_encode (.tvptxt true), decodeWord_encode .tvgtag, decodeWord_encode .tvui32, decodeWord_encode .tvuu16,
    decodeWord_encode .tvuf32, decodeWord_encode .tvutxt,
    fun w hop => decodeWord_error_of_not_legal w fun hlegal => hop (opcode_of_mem_legalWords _ hlegal)⟩

/-! ### Illegal and legal words at the engine (R55, R56) -/

@[simp] theorem State.failed_errCode (s : State) (code : Byte) (d : Nat) : (s.failed code d).errCode = code := rfl

@[simp] theorem State.succeeded_errCode (s : State) (d : Nat) : (s.succeeded d).errCode = 0 := rfl

/-- A word that decodes runs its command (R55). -/
theorem executeWord_ok (w : Word) (i : Instr) (s : State) (h : decodeWord w = .ok i) : executeWord w s = exec i s := by
  simp only [executeWord, h]

/-- A word that does not decode fails with IllegalCommand (R55, R56). -/
theorem executeWord_error (w : Word) (e : DecodeError) (s : State) (h : decodeWord w = .error e) :
    executeWord w s = .next (s.failed 9 s.draws) := by
  simp only [executeWord, h, State.finish_eq, State.complete_err]
  rfl

/-- Code 9 is IllegalCommand's alone (R115). -/
theorem ErrCode.code_ne_nine (c : ErrCode) (h : c ≠ .illegalCommand) : c.code ≠ 9 := by
  cases c with
  | illegalCommand => exact absurd rfl h
  | _ => decide

/-- No command's own rule answers IllegalCommand. -/
theorem exec_errCode_ne_nine (i : Instr) (s t : State) (h : exec i s = .next t) : t.errCode ≠ 9 := by
  rcases exec_inversion i s t h with ⟨k, -, hser⟩ | ⟨k, -, hdes⟩ | ⟨-, hcrc⟩ | ⟨-, cell, -, rfl⟩ |
    ⟨-, cell, -, htext⟩ | ⟨-, v, d, rfl⟩
  · rcases hser with ⟨-, rfl⟩ | ⟨-, f, -, rfl⟩ <;> simp
  · rcases hdes with ⟨c, d, hc, -, rfl⟩ | ⟨-, -, p, d, -, rfl⟩
    · exact c.code_ne_nine hc
    · simp
  · rcases hcrc with rfl | ⟨v, d, rfl⟩ <;> simp
  · simp
  · rcases htext with ⟨-, rfl⟩ | ⟨-, rfl⟩ <;> simp
  · simp

/-- Settles O7: a word that is not legal fails to decode, and a legal one runs a command, whose rule never answers 9. -/
theorem illegalWordsCompleteWithNine : Obligations.IllegalWordsCompleteWithNine := by
  intro s w hengine hpend
  rw [step_engine_pending s w hengine hpend]
  refine ⟨fun hillegal => ?_, fun hlegal => ?_⟩
  · obtain ⟨e, he⟩ := decodeWord_error_of_not_legal w hillegal
    exact ⟨s.draws, executeWord_error w e s.useTurn he⟩
  · obtain ⟨i, hi⟩ := (mem_legalWords_iff w).1 hlegal
    obtain ⟨t, ht⟩ := exec_next i s.useTurn
    exact ⟨t, (executeWord_ok w i _ hi).trans ht, exec_errCode_ne_nine i _ t ht⟩

/-! ### The header byte (R62) -/

/-- A header as a number: what its two readers give back are its quotient and its remainder by 32. -/
theorem encodeHeader_toNat (c : Config) (k : BitVec 3) (hc : c.syncPattern ≤ 0x1F) :
    (encodeHeader c k).toNat = k.toNat * 32 + c.syncPattern := by
  obtain ⟨htype, hvalid⟩ := header_fields c k hc
  obtain ⟨hdiv, hmod⟩ := header_readers c (encodeHeader c k)
  rw [htype] at hdiv
  have hrem : (encodeHeader c k).toNat % 32 = c.syncPattern := hmod.1 hvalid
  omega

/-- The header of the build the spec's vectors assume, for every kind code. -/
theorem encodeHeader_of_sync_two (c : Config) (k : BitVec 3) (hc : c.syncPattern = 0x02) :
    encodeHeader c k = BitVec.ofNat 8 (k.toNat * 32 + 2) := by
  rw [← hc, ← encodeHeader_toNat c k (by omega), BitVec.ofNat_toNat, BitVec.setWidth_eq]

/-- Settles O3: the header's number from its two readers, and the five headers from that number. -/
theorem headerPacksSyncAndKind : Obligations.HeaderPacksSyncAndKind :=
  ⟨fun c k hc => ⟨encodeHeader_toNat c k hc, header_fields c k hc⟩, header_readers, fun c hc =>
    ⟨encodeHeader_of_sync_two c _ hc, encodeHeader_of_sync_two c _ hc, encodeHeader_of_sync_two c _ hc,
      encodeHeader_of_sync_two c _ hc, encodeHeader_of_sync_two c _ hc⟩⟩

end Sys2Proof.Machine
end

section
/-! SUPPORT. The proofs about the TV cell (R77 to R90): what the packing commands leave, what the unpack and tag commands answer,
and what a pack followed at once by an unpack answers. -/

namespace Sys2Proof.Machine

/-! ### Reading a number that the buffer holds (R60) -/

/-- The first bytes of what a buffer holds are held too. -/
theorem State.Holds.left {s : State} {b : Buffer} {i : Nat} {l r : List Byte} (h : s.Holds b i (l ++ r)) : s.Holds b i l := by
  intro j hj
  rw [h j (by simp only [List.length_append]; omega), List.getElem_append_left hj]

/-- A 16-bit number that the buffer holds reads back, whatever the draw. -/
theorem State.rd16le_of_holds {s : State} {b : Buffer} {i : Nat} {v : Half} (h : s.Holds b i (le16 v)) (t : Nat) :
    s.rd16le t b i = v := by
  have hbyte := s.readByte_of_holds t b i (le16 v) h
  have hlow : s.readByte t b i = v.extractLsb' 0 8 := hbyte 0 (by simp [le16])
  have hhigh : s.readByte t b (i + 1) = v.extractLsb' 8 8 := hbyte 1 (by simp [le16])
  rw [State.rd16le, hlow, hhigh, le16_of_bytes]

/-- A 32-bit number that the buffer holds reads back, whatever the draw. -/
theorem State.rd32le_of_holds {s : State} {b : Buffer} {i : Nat} {v : Word} (h : s.Holds b i (le32 v)) (t : Nat) :
    s.rd32le t b i = v := by
  have hbyte := s.readByte_of_holds t b i (le32 v) h
  have h0 : s.readByte t b i = v.extractLsb' 0 8 := hbyte 0 (by simp [le32])
  have h1 : s.readByte t b (i + 1) = v.extractLsb' 8 8 := hbyte 1 (by simp [le32])
  have h2 : s.readByte t b (i + 2) = v.extractLsb' 16 8 := hbyte 2 (by simp [le32])
  have h3 : s.readByte t b (i + 3) = v.extractLsb' 24 8 := hbyte 3 (by simp [le32])
  rw [State.rd32le, h0, h1, h2, h3, le32_of_bytes]

/-! ### What the packing commands leave (R77, R78) -/

/-- What a packing command leaves: the cell stored, TRUNC and the one warning exactly when the text was truncated. -/
def State.packed (s : State) (cell : List Byte) (truncated : Bool) (d : Nat) : State :=
  { { s with mem := s.mem.setRange (Buffer.window .rbuf) cell }.succeeded d with
    trunc := truncated
    notes := s.notes ++ (if truncated = true ∧ s.cfg.logEnable = true then [{ severity := .warning, reason := 0x10 }] else []) }

/-- The content and the tag that a packing command packs from `s` (R80 to R84). -/
inductive Packs (s : State) : Instr → List Byte → Half → Prop where
  | clear : Packs s .tvclr [] tagEmpty
  | int32 : Packs s .tvpi32 (le32 s.arg0) tagInt32
  | uint16 : Packs s .tvpu16 (le16 (s.arg0.extractLsb' 0 16)) tagUInt16
  | float32 : Packs s .tvpf32 (le32 s.arg0) tagFloat32
  | nullText : Packs s (.tvptxt true) [] tagEmpty
  | text : Packs s (.tvptxt false) (s.readBytes s.draws .tstage 0 (min s.arg1.toNat 15)) tagText

variable {s : State} {i u : Instr} {content : List Byte} {tag tag' : Half}

/-- A content fits in storage with a byte to spare. -/
theorem Packs.length_le (h : Packs s i content tag) : content.length ≤ 15 := by
  cases h with
  | clear | int32 | uint16 | float32 | nullText => simp [le16, le32]
  | text => simp

/-- Without truncation a packing command leaves what any success leaves. -/
theorem State.packed_false (s : State) (cell : List Byte) (d : Nat) :
    s.packed cell false d = { s with mem := s.mem.setRange (Buffer.window .rbuf) cell }.succeeded d := by
  simp [State.packed, State.succeeded]

/-- Packing with nothing cut off. -/
theorem State.complete_pack (s : State) (content : List Byte) (tag : Half) :
    State.complete (s.pack content tag) = s.packed (tvCell content tag) false s.draws := by
  rw [State.pack, State.complete_ok, State.packed_false]
  rfl

/-- Packing a text truncates exactly when it is longer than 15 bytes (R84). -/
theorem State.complete_packText (s : State) :
    State.complete s.packText = s.packed (tvCell (s.readBytes s.draws .tstage 0 (min s.arg1.toNat 15)) tagText)
      (decide (15 < s.arg1.toNat)) (s.draws + 1) := by
  by_cases hlong : 15 < s.arg1.toNat
  · simp only [State.packText, if_pos hlong]
    cases hlog : s.cfg.logEnable <;> ext1 <;>
      simp [State.writeCell, State.packed, State.succeeded, textTruncatedReason, hlog, hlong]
  · simp only [State.packText, if_neg hlong, decide_eq_false hlong]
    rw [State.complete_ok, State.packed_false]
    rfl

/-- A packing command succeeds with its cell stored; only TVPTXT truncates. -/
theorem Packs.exec_eq (h : Packs s i content tag) : ∃ truncated d,
    (truncated = true ↔ i = .tvptxt false ∧ 15 < s.arg1.toNat) ∧
    exec i s = .next (s.packed (tvCell content tag) truncated d) := by
  cases h with
  | clear | int32 | uint16 | float32 | nullText =>
    exact ⟨false, s.draws, by simp, congrArg _ (s.complete_pack _ _)⟩
  | text => exact ⟨_, _, by simp, congrArg _ s.complete_packText⟩

/-- A packing command other than TVPTXT of a text changes RBUF[0..18) alone (R77). -/
theorem Packs.exec_succeeded (h : Packs s i content tag) (hi : i ≠ .tvptxt false) : ∃ d, exec i s =
    .next ({ s with mem := s.mem.setRange (Buffer.window .rbuf) (tvCell content tag) }.succeeded d) := by
  obtain ⟨truncated, d, htrunc, hexec⟩ := h.exec_eq
  obtain rfl : truncated = false := by simpa [hi] using htrunc
  exact ⟨d, hexec.trans (congrArg _ (s.packed_false _ d))⟩

/-- Settles O34: TVCLR packs no content under the tag Empty. -/
theorem tvclrClearsCell : Obligations.TvclrClearsCell :=
  ⟨decodeWord_encode .tvclr, fun _ => Packs.clear.exec_succeeded (by decide)⟩

/-- Settles O35: TVPI32 packs the bytes of ARG0 under the tag Int32. -/
theorem tvpi32PacksArgument : Obligations.Tvpi32PacksArgument :=
  ⟨decodeWord_encode .tvpi32, fun _ => Packs.int32.exec_succeeded (by decide)⟩

/-- Settles O36: TVPU16 packs the bytes of the low half of ARG0 under the tag UInt16. -/
theorem tvpu16PacksLowHalf : Obligations.Tvpu16PacksLowHalf := by
  refine ⟨decodeWord_encode .tvpu16, fun s => ?_⟩
  have hbytes : le16 (s.arg0.extractLsb' 0 16) = [s.arg0.extractLsb' 0 8, s.arg0.extractLsb' 8 8] := by
    simp only [le16, List.cons.injEq, and_true]
    constructor <;> ext <;> simp
  have hexec := (Packs.uint16 (s := s)).exec_succeeded (by decide)
  rwa [hbytes] at hexec

/-- Settles O37: TVPF32 packs the bytes of ARG0 under the tag Float32. -/
theorem tvpf32PacksBits : Obligations.Tvpf32PacksBits :=
  ⟨decodeWord_encode .tvpf32, fun _ => Packs.float32.exec_succeeded (by decide)⟩

/-- Settles O38: the null text is a clear; a text is packed under the tag Text, truncated or not. -/
theorem tvptxtPacksText : Obligations.TvptxtPacksText := by
  refine ⟨decodeWord_encode (.tvptxt false), decodeWord_encode (.tvptxt true),
    fun _ => Packs.nullText.exec_succeeded (by decide), fun s => ?_⟩
  refine ⟨s.readBytes s.draws .tstage 0 (min s.arg1.toNat 15), s.draws + 1, by simp, s.readBytes_yields _ _ _ _, ?_⟩
  refine (congrArg Host.Outcome.next s.complete_packText).trans (congrArg _ ?_)
  by_cases hlong : 15 < s.arg1.toNat
  · simp only [decide_eq_true hlong, if_pos hlong, State.packed, true_and]
    rfl
  · rw [decide_eq_false hlong, if_neg hlong, State.packed_false]
    rfl

/-! ### What the unpack and tag commands answer (R85 to R89) -/

/-- A command that answers changes RESULT alone (R77). -/
theorem State.finish_answer (s : State) (k : Nat) (v : Word) :
    State.finish (s.answer k v) = .next ({ s with result := v }.succeeded (s.draws + k)) := by
  rw [State.finish_eq, State.answer, State.complete_ok]
  rfl

/-- The 32 bits an unpack reads after the tag (R86, R88). -/
def State.storedWord (s : State) : Word := s.rd32le (s.draws + 1) .rbuf 0

/-- The 16 bits an unpack reads after the tag, zero-extended (R87). -/
def State.storedHalf (s : State) : Word := (s.rd16le (s.draws + 1) .rbuf 0).zeroExtend 32

/-- The tag that a numeric unpack asks for, and what it answers when the cell has it (R86 to R88). -/
inductive Unpacks : Instr → Half → (State → Word) → Prop where
  | int32 : Unpacks .tvui32 tagInt32 State.storedWord
  | uint16 : Unpacks .tvuu16 tagUInt16 State.storedHalf
  | float32 : Unpacks .tvuf32 tagFloat32 State.storedWord

variable {value : State → Word}

/-- A numeric unpack answers the stored value or 0, by the tag. -/
theorem Unpacks.exec_eq (h : Unpacks u tag value) (s : State) :
    exec u s = .next ({ s with result := if s.tvTag s.draws = tag then value s else 0 }.succeeded (s.draws + 2)) := by
  cases h with
  | int32 | uint16 | float32 => exact s.finish_answer _ _

/-- The same with the tag and the value as the numbers of the bytes read. -/
theorem Unpacks.exec_eq_ofNat {n m : Nat} (h : Unpacks u (BitVec.ofNat 16 n) value) (s : State) (hn : n < 65536)
    (hvalue : value s = BitVec.ofNat 32 m) : exec u s = .next ({ s with
      result := if (s.readByte s.draws .rbuf 16).toNat + 256 * (s.readByte s.draws .rbuf (16 + 1)).toNat = n then
        BitVec.ofNat 32 m else 0 }.succeeded (s.draws + 2)) := by
  simp only [h.exec_eq, State.tvTag_eq_iff s s.draws n hn, hvalue]

/-- Settles O39: the tag read is the number of its two bytes. -/
theorem tvgtagReturnsTag : Obligations.TvgtagReturnsTag := by
  refine ⟨decodeWord_encode .tvgtag, fun s => ⟨_, _, s.draws + 1, s.yields_two s.draws .rbuf 16, ?_⟩⟩
  rw [← State.rd16le_zeroExtend]
  exact s.finish_answer 1 _

/-- Settles O40: TVUI32 reads the tag's two bytes, then the four bytes of the value. -/
theorem tvui32UnpacksOrZero : Obligations.Tvui32UnpacksOrZero :=
  ⟨decodeWord_encode .tvui32, fun s => ⟨_, _, _, _, _, _, _, s.yields_two s.draws .rbuf 16,
    s.yields_four (s.draws + 1) .rbuf 0, Unpacks.int32.exec_eq_ofNat s (by decide) (s.rd32le_ofNat _ _ _)⟩⟩

/-- Settles O41: TVUU16 reads the tag's two bytes, then the two bytes of the value. -/
theorem tvuu16UnpacksOrZero : Obligations.Tvuu16UnpacksOrZero :=
  ⟨decodeWord_encode .tvuu16, fun s => ⟨_, _, _, _, _, s.yields_two s.draws .rbuf 16,
    s.yields_two (s.draws + 1) .rbuf 0, Unpacks.uint16.exec_eq_ofNat s (by decide) (s.rd16le_zeroExtend _ _ _)⟩⟩

/-- Settles O42: TVUF32 reads the tag's two bytes, then the four bytes of the value. -/
theorem tvuf32UnpacksOrZero : Obligations.Tvuf32UnpacksOrZero :=
  ⟨decodeWord_encode .tvuf32, fun s => ⟨_, _, _, _, _, _, _, s.yields_two s.draws .rbuf 16,
    s.yields_four (s.draws + 1) .rbuf 0, Unpacks.float32.exec_eq_ofNat s (by decide) (s.rd32le_ofNat _ _ _)⟩⟩

/-- Settles O43: the scan of the 16 storage bytes stops at the first zero byte, or at the end. -/
theorem tvutxtMeasuresText : Obligations.TvutxtMeasuresText := by
  refine ⟨decodeWord_encode .tvutxt, fun s => ?_⟩
  obtain ⟨hle, hbefore, hstop⟩ := textLength_spec (s.readBytes s.draws .rbuf 0 16)
  exact ⟨_, _, _, s.readBytes_length _ _ _ _, s.readBytes_yields _ _ _ _, by simpa using hle, hbefore, hstop,
    s.finish_answer 1 _⟩

/-! ### The frame of the TV commands (R77, R78) -/

/-- Every packing command packs something. -/
theorem exists_packs (s : State) (hi : i ∈ [Instr.tvclr, .tvpi32, .tvpu16, .tvpf32, .tvptxt false, .tvptxt true]) :
    ∃ content tag, Packs s i content tag := by
  simp only [List.mem_cons, List.not_mem_nil, or_false] at hi
  rcases hi with rfl | rfl | rfl | rfl | rfl | rfl
  · exact ⟨_, _, .clear⟩
  · exact ⟨_, _, .int32⟩
  · exact ⟨_, _, .uint16⟩
  · exact ⟨_, _, .float32⟩
  · exact ⟨_, _, .text⟩
  · exact ⟨_, _, .nullText⟩

/-- Every other TV command changes RESULT alone. -/
theorem exec_answer (s : State) (hi : i ∈ [Instr.tvgtag, .tvui32, .tvuu16, .tvuf32, .tvutxt]) :
    ∃ v d, exec i s = .next ({ s with result := v }.succeeded d) := by
  simp only [List.mem_cons, List.not_mem_nil, or_false] at hi
  rcases hi with rfl | rfl | rfl | rfl | rfl <;> exact ⟨_, _, s.finish_answer _ _⟩

/-- Settles O45: a packing command leaves `State.packed` with a cell of 18 bytes; the others only answer. -/
theorem tvCommandsNeverFailAndStayInFrame : Obligations.TvCommandsNeverFailAndStayInFrame := by
  refine fun s i => ⟨fun hi => ?_, exec_answer s⟩
  obtain ⟨content, tag, hpacks⟩ := exists_packs s hi
  obtain ⟨truncated, d, htrunc, hexec⟩ := hpacks.exec_eq
  have hcell : (tvCell content tag).length = 18 := tvCell_length content tag (hpacks.length_le.trans (by decide))
  refine ⟨_, hexec, rfl, htrunc, rfl, fun o ho => ?_⟩
  exact Memory.byteAt_setRange_outside _ _ _ _ (hcell.symm ▸ ho)

/-! ### A pack followed at once by an unpack (R90) -/

/-- A packing command leaves its cell in RBUF, and the tag reads back whatever the draw. -/
theorem Packs.exists_exec (h : Packs s i content tag) :
    ∃ t, exec i s = .next t ∧ t.Holds .rbuf 0 (tvCell content tag) ∧ ∀ d, t.tvTag d = tag := by
  obtain ⟨truncated, d, -, hexec⟩ := h.exec_eq
  exact ⟨_, hexec, State.holds_of_setRange _ s.mem .rbuf 0 _ rfl,
    fun d => State.tvTag_of_cell _ s.mem content tag d (h.length_le.trans (by decide)) rfl⟩

/-- The unpack of the packed type answers the value that reads back from the content. -/
theorem Packs.then_unpack {v : Word} (hp : Packs s i content tag) (hu : Unpacks u tag value)
    (hvalue : ∀ t : State, t.Holds .rbuf 0 content → value t = v) :
    ∃ t w, exec i s = .next t ∧ exec u t = .next w ∧ w.result = v := by
  obtain ⟨t, hexec, hcell, htag⟩ := hp.exists_exec
  refine ⟨t, _, hexec, hu.exec_eq t, ?_⟩
  exact (if_pos (htag _)).trans (hvalue t hcell.left.left)

/-- The unpack of another numeric type answers 0. -/
theorem Packs.then_other_unpack (hp : Packs s i content tag) (hu : Unpacks u tag' value) (hne : tag ≠ tag') :
    ∃ t w, exec i s = .next t ∧ exec u t = .next w ∧ w.result = 0 := by
  obtain ⟨t, hexec, -, htag⟩ := hp.exists_exec
  refine ⟨t, _, hexec, hu.exec_eq t, ?_⟩
  exact if_neg ((htag _).trans_ne hne)

/-- The tag query answers the packed tag. -/
theorem Packs.then_tvgtag (hp : Packs s i content tag) :
    ∃ t w, exec i s = .next t ∧ exec .tvgtag t = .next w ∧ w.result = tag.zeroExtend 32 := by
  obtain ⟨t, hexec, -, htag⟩ := hp.exists_exec
  refine ⟨t, _, hexec, t.finish_answer 1 _, ?_⟩
  exact congrArg (BitVec.zeroExtend 32) (htag _)

/-- The zeros that fill storage up add nothing to a text. -/
theorem textLength_append_zeros (l : List Byte) (n : Nat) : textLength (l ++ List.replicate n 0) = textLength l := by
  induction l with
  | nil => cases n <;> simp [textLength, List.replicate_succ]
  | cons b l ih =>
    simp only [textLength, List.cons_append, List.takeWhile_cons] at ih ⊢
    split
    · simp only [List.length_cons, ih]
    · rfl

/-- The whole of a text is measured exactly when no byte of it is zero. -/
theorem textLength_eq_length_iff (l : List Byte) : textLength l = l.length ↔ 0 ∉ l := by
  rw [textLength, (List.takeWhile_sublist _).length_eq, List.takeWhile_eq_self_iff]
  simpa only [decide_eq_true_eq] using List.forall_mem_ne'

/-- TVUTXT measures the packed content. -/
theorem Packs.then_tvutxt (hp : Packs s i content tag) :
    ∃ t w, exec i s = .next t ∧ exec .tvutxt t = .next w ∧ w.result = BitVec.ofNat 32 (textLength content) := by
  obtain ⟨t, hexec, hcell, -⟩ := hp.exists_exec
  refine ⟨t, _, hexec, t.finish_answer 1 _, ?_⟩
  have hread := t.readBytes_of_holds t.draws .rbuf 0 _ hcell.left
  have hlen : (content ++ List.replicate (16 - content.length) (0 : Byte)).length = 16 := by
    have := hp.length_le
    simp only [List.length_append, List.length_replicate]
    omega
  rw [hlen] at hread
  simp only [State.succeeded, hread, textLength_append_zeros]

/-- Settles O44: each law is one of the laws of `Packs` above, for the two commands it names. -/
theorem packThenUnpackLaws : Obligations.PackThenUnpackLaws := by
  intro s
  refine ⟨?_, ?_, ?_, ?_, ?_, ?_⟩
  · exact Packs.int32.then_unpack .int32 fun t h => State.rd32le_of_holds h _
  · obtain ⟨t, w, ht, hw, hresult⟩ := Packs.uint16.then_unpack (s := s) .uint16
      fun t h => congrArg (BitVec.zeroExtend 32) (State.rd16le_of_holds h _)
    refine ⟨t, w, ht, hw, ?_⟩
    rw [hresult, BitVec.zeroExtend_eq_setWidth, BitVec.toNat_setWidth, BitVec.extractLsb'_toNat, Nat.shiftRight_zero]
    omega
  · exact Packs.float32.then_unpack .float32 fun t h => State.rd32le_of_holds h _
  · simp only [List.forall_mem_cons]
    exact ⟨Packs.int32.then_other_unpack .uint16 (by decide), Packs.int32.then_other_unpack .float32 (by decide),
      Packs.uint16.then_other_unpack .int32 (by decide), Packs.uint16.then_other_unpack .float32 (by decide),
      Packs.float32.then_other_unpack .int32 (by decide), Packs.float32.then_other_unpack .uint16 (by decide),
      Packs.clear.then_other_unpack .int32 (by decide), Packs.clear.then_other_unpack .uint16 (by decide),
      Packs.clear.then_other_unpack .float32 (by decide), Packs.clear.then_tvutxt, by simp⟩
  · refine ⟨_, s.readBytes_length s.draws .tstage 0 _, s.readBytes_yields _ _ _ _, ?_⟩
    obtain ⟨t, w, ht, hw, hresult⟩ := Packs.text.then_tvutxt (s := s)
    refine ⟨t, w, ht, hw, ?_⟩
    have hle := (textLength_spec (s.readBytes s.draws .tstage 0 (min s.arg1.toNat 15))).1
    have hlen := (Packs.text (s := s)).length_le
    rw [hresult, BitVec.toNat_ofNat, Nat.mod_eq_of_lt (by omega), textLength_eq_length_iff]
  · exact Packs.text.then_tvgtag

end Sys2Proof.Machine
end

section
/-! SUPPORT. The proofs about the frame codec (41_frame_codec.md): what a failure leaves (R108), the frame that SER builds (R91), the
checks of DES (R97), and what DES makes of a frame from SER, left as it is or with one bit of it inverted (R103 to R107). -/

namespace Sys2Proof.Machine

/-! ### What a failing command leaves (R108, R116) -/

theorem desInstr_ne_serInstr (j k : Kind) : desInstr j ≠ serInstr k := by
  cases j <;> cases k <;> decide

/-- A command that fails leaves its state with the failure reported, after SER with FLEN cleared. -/
theorem exec_failure_cases (i : Instr) (s t : State) (h : exec i s = .next t) (herr : t.errCode ≠ 0) :
    (∃ k c d, i = serInstr k ∧ t = { s with flen := 0 }.failed c d) ∨
    ((∀ k, i ≠ serInstr k) ∧ ∃ c d, t = s.failed c d) := by
  rcases exec_inversion i s t h with ⟨k, hi, hser⟩ | ⟨k, rfl, hdes⟩ | ⟨rfl, hcrc⟩ | ⟨-, _, -, rfl⟩ |
    ⟨-, _, -, htext⟩ | ⟨-, _, _, rfl⟩
  · rcases hser with ⟨-, rfl⟩ | ⟨-, f, -, rfl⟩
    · exact .inl ⟨k, _, _, hi, rfl⟩
    · exact absurd rfl herr
  · rcases hdes with ⟨c, d, -, -, rfl⟩ | ⟨-, -, p, d, -, rfl⟩
    · exact .inr ⟨desInstr_ne_serInstr k, _, _, rfl⟩
    · exact absurd rfl herr
  · rcases hcrc with rfl | ⟨v, d, rfl⟩
    · exact .inr ⟨fun k => by cases k <;> decide, _, _, rfl⟩
    · exact absurd rfl herr
  · exact absurd rfl herr
  · rcases htext with ⟨-, rfl⟩ | ⟨-, rfl⟩ <;> exact absurd rfl herr
  · exact absurd rfl herr

/-- Settles O16: the report of a failure writes no output, and only SER clears FLEN before it. -/
theorem failureLeavesOutputs : Obligations.FailureLeavesOutputs := by
  intro i s t h herr
  rcases exec_failure_cases i s t h herr with ⟨k, c, d, hi, rfl⟩ | ⟨hi, c, d, rfl⟩
  · exact ⟨rfl, rfl, rfl, fun _ => rfl, fun hne => absurd hi (hne k)⟩
  · exact ⟨rfl, rfl, rfl, fun ⟨k, hk⟩ => absurd hk (hi k), fun _ => rfl⟩

/-! ### The frame that SER builds (R91, R104, R105) -/

/-- SER(K) of a kind that fits stores its frame and its length, and nothing else (R91). -/
theorem exec_ser_fits (k : Kind) (s : State) (h : kindSize s.cfg k ≤ s.cfg.maxPayloadSize) :
    exec (serInstr k) s = .next ({ s with
      mem := s.mem.setRange (Buffer.window .fbuf)
        (frameBytes s.cfg k (framePayload k (s.readBytes s.draws .rbuf 0 (kindSize s.cfg k))))
      flen := BitVec.ofNat 16 (4 + kindSize s.cfg k) }.succeeded (s.draws + 1)) := by
  rw [exec_ser, State.ser_fits k s h, State.complete_ok]
  rfl

/-- The payload of a frame, byte by byte: Discovery's slots at or beyond the count are zero (R93). -/
theorem framePayload_eq_mapIdx (k : Kind) (p : List Byte) : framePayload k p =
    p.mapIdx fun j b => if k = .discovery ∧ 1 + 7 * (p.headD 0).toNat ≤ j then 0 else b := by
  apply List.ext_getElem
  · simp
  · intro j hj hj'
    cases k with
    | discovery =>
      simp only [framePayload, List.getElem_mapIdx, true_and]
      exact zeroUnusedSlots_getElem p j hj (by simpa using hj')
    | command | telemetry | settings | taggedValue => simp [framePayload]

/-- Settles O24: the record bytes are what SER reads from RBUF, and the frame is header, length, payload and CRC. -/
theorem serBuildsFrame : Obligations.SerBuildsFrame := by
  refine fun k s => ⟨fun hbig => ⟨s.draws, ?_⟩, fun hfits => ?_⟩
  · rw [exec_ser, State.ser_oversized k s hbig, State.complete_err]
    rfl
  · refine ⟨s.readBytes s.draws .rbuf 0 (kindSize s.cfg k), s.draws + 1, s.readBytes_length _ _ _ _,
      s.readBytes_yields _ _ _ _, ?_⟩
    rw [exec_ser_fits k s hfits, framePayload_eq_mapIdx]
    simp only [frameBytes, frameBody, List.length_mapIdx, State.readBytes_length, le16]

/-- Settles O25: FLEN is 4 + SIZE(K), which 16 bits hold. -/
theorem serFrameSizes : Obligations.SerFrameSizes := by
  intro k s t hwf ht herr
  obtain ⟨hfits, -, hflen, -⟩ := exec_ser_ok k s t ht herr
  obtain ⟨-, hmax, -⟩ := Config.wf_bounds s.cfg hwf
  have hlen : t.flen.toNat = 4 + kindSize s.cfg k := by
    rw [hflen, kindSize_flen s.cfg k hfits hmax]
  refine ⟨hlen, ?_, ?_, ?_, ?_, ?_⟩
  case _ | _ | _ | _ => rintro rfl; exact hlen
  case _ => rintro rfl; rw [hlen, kindSize]; omega

/-- The Command kind's code is 0, so its header is the sync pattern alone (R62). -/
theorem encodeHeader_command (c : Config) : encodeHeader c Kind.command.code = BitVec.ofNat 8 c.syncPattern := by
  simp [encodeHeader, Kind.code]

/-- Settles O26: the first byte of the frame is its header. -/
theorem serCommandHeaderIsSync : Obligations.SerCommandHeaderIsSync := by
  intro s t _ ht herr
  obtain ⟨-, -, -, hframe⟩ := exec_ser_ok .command s t ht herr
  rw [← encodeHeader_command]
  exact hframe 0 (by simp)

/-! ### The checks of DES (R97) -/

theorem isValidHeader_eq_false_iff (c : Config) (h : Byte) : isValidHeader c h = false ↔ h.toNat % 32 ≠ c.syncPattern := by
  rw [ne_eq, ← (header_readers c h).2, Bool.not_eq_true]

theorem decodeType_ne_iff (c : Config) (h : Byte) (k : BitVec 3) : decodeType h ≠ k ↔ h.toNat / 32 ≠ k.toNat := by
  rw [← (header_readers c h).1, ne_eq, ne_eq, BitVec.toNat_inj]

/-- A number differs from the one read exactly when its bytes differ from the bytes read. -/
theorem State.ne_rd16le_iff (s : State) (v : Half) (t : Nat) (b : Buffer) (i : Nat) :
    v ≠ s.rd16le t b i ↔ le16 v ≠ [s.readByte t b i, s.readByte t b (i + 1)] := by
  rw [← bytes_of_le16]
  exact not_congr ⟨congrArg le16, le16_injective _ _⟩

/-- Settles O27: DES makes its five reads in the rule's order, and its checks are the rule's read as numbers and bytes. -/
theorem desChecksInOrder : Obligations.DesChecksInOrder := by
  intro k s
  refine ⟨s.readByte s.draws .fbuf 0, s.readByte (s.draws + 1) .fbuf 1, s.readBytes (s.draws + 2) .fbuf 0 _, _,
    s.readBytes (s.draws + 4) .fbuf 2 _, (s.des k).2.draws, s.yields_one _ _ _, s.yields_one _ _ _,
    s.readBytes_length _ _ _ _, s.readBytes_yields _ _ _ _, rfl, s.yields_two (s.draws + 3) _ _,
    s.readBytes_length _ _ _ _, s.readBytes_yields _ _ _ _, ?_⟩
  rw [exec_des]
  simp only [State.des, isValidHeader_eq_false_iff, decodeType_ne_iff s.cfg, State.ne_rd16le_iff, le16]
  split_ifs
  case neg => exact congrArg _ (State.complete_ok _)
  all_goals exact congrArg _ (State.complete_err _ _)

/-! ### DES on a frame that FBUF holds (R97) -/

/-- A run of bytes that the buffer holds is what any state with the same bytes there holds. -/
theorem State.Holds.congr {s t : State} {b : Buffer} {n : Nat} {bs : List Byte} (h : s.Holds b 0 bs) (hn : bs.length ≤ n)
    (hsame : ∀ i < n, t.mem.byteAt (b.window + i) = s.mem.byteAt (b.window + i)) : t.Holds b 0 bs := by
  intro j hj
  rw [Nat.add_zero, hsame j (by omega)]
  exact h j hj

/-- The buffer holds one run of bytes of each length. -/
theorem State.Holds.ext {s : State} {b : Buffer} {i : Nat} {l r : List Byte} (hl : s.Holds b i l) (hr : s.Holds b i r)
    (hlen : l.length = r.length) : l = r :=
  List.ext_getElem hlen fun j hj hj' => Option.some_injective _ ((hl j hj).symm.trans (hr j hj'))

/-- The bytes `f` stand in FBUF as a frame: FLEN is their number, and FBUF has room for them (R63). -/
structure State.HasFrame (s : State) (f : List Byte) : Prop where
  holds : s.Holds .fbuf 0 f
  flen : s.flen.toNat = f.length
  fits : f.length ≤ fbufSize s.cfg

/-- The frame depends on the parameters, FLEN and the bytes of FBUF alone. -/
theorem State.HasFrame.congr {s t : State} {f : List Byte} (h : s.HasFrame f) (hcfg : t.cfg = s.cfg) (hflen : t.flen = s.flen)
    (hsame : ∀ i < fbufSize s.cfg, t.mem.byteAt (Buffer.window .fbuf + i) = s.mem.byteAt (Buffer.window .fbuf + i)) :
    t.HasFrame f :=
  ⟨h.holds.congr h.fits hsame, hflen ▸ h.flen, hcfg ▸ h.fits⟩

/-- A SER that succeeds leaves its frame (R91). -/
theorem hasFrame_of_exec_ser (k : Kind) (s t : State) (hwf : s.cfg.wf = true) (ht : exec (serInstr k) s = .next t)
    (herr : t.errCode = 0) : t.cfg = s.cfg ∧ kindSize s.cfg k ≤ 255 ∧
      t.HasFrame (frameBytes s.cfg k (framePayload k (s.readBytes s.draws .rbuf 0 (kindSize s.cfg k)))) := by
  obtain ⟨hfits, hcfg, hflen, hframe⟩ := exec_ser_ok k s t ht herr
  obtain ⟨-, hmax, -⟩ := Config.wf_bounds s.cfg hwf
  refine ⟨hcfg, by omega, hframe, ?_, ?_⟩
  · simp [hflen, kindSize_flen s.cfg k hfits hmax]
  · simpa [hcfg, fbufSize_eq] using hfits

/-- The code DES(K) gives to the bytes `h`, `l` and `rest`, as many as FLEN says and at least 4 of them: 0 if every check of R97
holds, else that of the first that fails. -/
def desCode (c : Config) (k : Kind) (h l : Byte) (rest : List Byte) : Byte :=
  if isValidHeader c h = false then 3
  else if decodeType h ≠ k.code then 4
  else if rest.length ≠ l.toNat + 2 then 5
  else if l.toNat ≠ kindSize c k then 6
  else if le16 (crc16 (h :: l :: rest.take l.toNat)) ≠ rest.drop l.toNat then 7
  else 0

/-- DES on written bytes reports their code, and copies the payload if that is 0 (R97). -/
theorem State.HasFrame.exec_des {s : State} {c : Config} {h l : Byte} {rest : List Byte}
    (hframe : s.HasFrame (h :: l :: rest)) (hcfg : s.cfg = c) (hlen : 2 ≤ rest.length) (k : Kind) :
    ∃ u, exec (desInstr k) s = .next u ∧ u.errCode = desCode c k h l rest ∧
      (u.errCode = 0 → u.Holds .rbuf 0 (rest.take l.toNat)) := by
  obtain ⟨hholds, hflen, hfits⟩ := hframe
  simp only [List.length_cons] at hflen hfits
  refine ⟨_, Machine.exec_des k s, ?_⟩
  rw [s.des_of_holds k h l rest hholds (by omega) (by omega) hlen, desCode, ← hcfg]
  split_ifs
  case neg => exact ⟨rfl, fun _ => State.holds_of_setRange _ s.mem .rbuf 0 _ rfl⟩
  all_goals exact ⟨State.complete_err_errCode _ _, fun hok => absurd hok (by simp [ErrCode.code])⟩

/-! ### A frame left as it is (R103, R106) -/

section
variable {c : Config} {k : Kind} {p : List Byte}

@[simp] theorem le16_length (v : Half) : (le16 v).length = 2 := rfl

/-- The length byte of a payload of a legal build (R63). -/
theorem lengthByte_toNat (hp : p.length ≤ 255) : (BitVec.ofNat 8 p.length).toNat = p.length := by
  rw [BitVec.toNat_ofNat]
  omega

/-- DES(K) of the header of kind K goes on to the length. -/
theorem desCode_of_own_header (hc : c.syncPattern ≤ 0x1F) (l : Byte) (rest : List Byte) :
    desCode c k (encodeHeader c k.code) l rest =
      if rest.length ≠ l.toNat + 2 then 5
      else if l.toNat ≠ kindSize c k then 6
      else if le16 (crc16 (encodeHeader c k.code :: l :: rest.take l.toNat)) ≠ rest.drop l.toNat then 7
      else 0 := by
  obtain ⟨htype, hvalid⟩ := header_fields c k.code hc
  rw [desCode, if_neg (by simp [hvalid]), if_neg (not_not.2 htype)]

/-- DES(K) of the header and the length of kind K goes on to compare the CRC with the trailer. -/
theorem desCode_of_own_start {rest : List Byte} (hc : c.syncPattern ≤ 0x1F) (hp : p.length = kindSize c k)
    (hsize : kindSize c k ≤ 255) (hrest : rest.length = p.length + 2) :
    desCode c k (encodeHeader c k.code) (BitVec.ofNat 8 p.length) rest =
      if le16 (crc16 (encodeHeader c k.code :: BitVec.ofNat 8 p.length :: rest.take p.length)) ≠ rest.drop p.length then 7
      else 0 := by
  rw [desCode_of_own_header hc, lengthByte_toNat (by omega), if_neg (not_not.2 hrest), if_neg (not_not.2 hp)]

/-- DES of a frame's own kind accepts it. -/
theorem desCode_frame (hc : c.syncPattern ≤ 0x1F) (hp : p.length = kindSize c k) (hsize : kindSize c k ≤ 255) :
    desCode c k (encodeHeader c k.code) (BitVec.ofNat 8 p.length) (p ++ le16 (crc16 (frameBody c k p))) = 0 := by
  rw [desCode_of_own_start hc hp hsize (by simp), List.take_left, List.drop_left]
  exact if_neg (not_not.2 rfl)

/-- DES of any other kind finds the header's kind wrong, whatever follows it. -/
theorem desCode_of_other_kind {j : Kind} (hc : c.syncPattern ≤ 0x1F) (hjk : j ≠ k) (l : Byte) (rest : List Byte) :
    desCode c k (encodeHeader c j.code) l rest = 4 := by
  obtain ⟨htype, hvalid⟩ := header_fields c j.code hc
  have hcode : j.code ≠ k.code := fun h => hjk (kindCode_injective j k h)
  simp [desCode, htype, hvalid, hcode]

/-- Only Discovery's payload differs from the record's bytes (R93). -/
theorem framePayload_of_ne_discovery (hk : k ≠ .discovery) (p : List Byte) : framePayload k p = p := by
  cases k with
  | discovery => exact absurd rfl hk
  | command | telemetry | settings | taggedValue => rfl

/-- A record's payload is equal to it in the sense of R76. -/
theorem sameRecord_framePayload (hp : p.length = kindSize c k) : sameRecord c k p (framePayload k p) := by
  cases k with
  | command | telemetry | settings | taggedValue => rfl
  | discovery =>
    change p.length = 1 + 7 * c.maxModules at hp
    cases p with
    | nil => simp at hp; omega
    | cons n p =>
      simp only [sameRecord, framePayload, zeroUnusedSlots, List.headD_cons]
      refine ⟨by simp [Nat.add_comm 1], ?_⟩
      rw [List.take_append_of_le_length (by rw [List.length_take]; omega), List.take_take]
      congr 1
      omega

end

/-- Settles O30: DES accepts the frame that SER left and copies its payload, which is equal to the record. -/
theorem serDesRoundTrip : Obligations.SerDesRoundTrip := by
  intro k s hwf hfits
  have hexec := exec_ser_fits k s hfits
  obtain ⟨hcfg, hsize, hframe⟩ := hasFrame_of_exec_ser k s _ hwf hexec rfl
  have hplen := s.readBytes_length s.draws .rbuf 0 (kindSize s.cfg k)
  refine ⟨_, _, hexec, rfl, hplen, s.readBytes_yields _ _ _ _, fun t' hcfg' hflen' hsame => ?_⟩
  generalize s.readBytes s.draws .rbuf 0 (kindSize s.cfg k) = p at *
  have hqlen : (framePayload k p).length = kindSize s.cfg k := by simp [hplen]
  have hframe' := hframe.congr hcfg' hflen' hsame
  rw [frameBytes_cons] at hframe'
  obtain ⟨u, hu, hcode, hcopy⟩ := hframe'.exec_des (hcfg'.trans hcfg) (by simp) k
  rw [desCode_frame (Config.wf_bounds s.cfg hwf).1 hqlen hsize] at hcode
  have hholds := hcopy hcode
  rw [lengthByte_toNat (by omega), List.take_left] at hholds
  refine ⟨u, _, hu, hcode, hholds, hqlen, sameRecord_framePayload hplen, fun hk => ?_, ?_⟩
  · exact framePayload_of_ne_discovery hk p
  · rintro rfl j hj hunused
    exact (zeroUnusedSlots_getElem p j hj (by simpa using hj)).trans (if_pos hunused)

/-- Settles O31: the header that SER.J wrote names J. -/
theorem kindIsolation : Obligations.KindIsolation := by
  intro j k s t t' hwf hjk ht herr hcfg' hflen' hsame
  obtain ⟨hcfg, -, hframe⟩ := hasFrame_of_exec_ser j s t hwf ht herr
  have hframe' := hframe.congr hcfg' hflen' (hcfg ▸ hsame)
  rw [frameBytes_cons] at hframe'
  obtain ⟨u, hu, hcode, -⟩ := hframe'.exec_des (hcfg'.trans hcfg) (by simp) k
  exact ⟨u, hu, hcode.trans (desCode_of_other_kind (Config.wf_bounds s.cfg hwf).1 hjk _ _)⟩

/-! ### A frame with one bit inverted (R107) -/

/-- Inverting a bit of a byte changes it. -/
theorem flip_ne (x : Byte) (i : Nat) (hi : i < 8) : x ^^^ (1#8 <<< i) ≠ x := by
  have hbit : ∀ i < 8, 1#8 <<< i ≠ 0 := by decide
  intro h
  exact hbit i hi (by simpa using h)

/-- The two fields of a header with some bits inverted are the fields with theirs inverted. -/
theorem header_fields_xor (h m : Byte) :
    decodeType (h ^^^ m) = decodeType h ^^^ decodeType m ∧ (h ^^^ m) &&& 0x1F = (h &&& 0x1F) ^^^ (m &&& 0x1F) := by
  refine ⟨BitVec.extractLsb'_xor, ?_⟩
  ext i
  simp [Bool.and_xor_distrib_right]

/-- Inverting a bit of the pattern makes a valid header invalid (R62). -/
theorem isValidHeader_flip_pattern (c : Config) (h : Byte) (i : Nat) (hi : i < 5) (hvalid : isValidHeader c h = true) :
    isValidHeader c (h ^^^ (1#8 <<< i)) = false := by
  have hbit : ∀ i < 5, (1#8 <<< i) &&& (0x1F : Byte) = 1#8 <<< i := by decide
  simp only [isValidHeader, decide_eq_true_eq] at hvalid
  rw [isValidHeader, decide_eq_false_iff_not, (header_fields_xor h _).2, hbit i hi, ← hvalid, BitVec.toNat_inj]
  exact flip_ne _ i (by omega)

/-- Inverting a bit of the kind leaves a valid header valid, of another kind (R62). -/
theorem header_flip_kind (c : Config) (h : Byte) (i : Nat) (hi : 5 ≤ i) (hi' : i < 8) :
    isValidHeader c (h ^^^ (1#8 <<< i)) = isValidHeader c h ∧ decodeType (h ^^^ (1#8 <<< i)) ≠ decodeType h := by
  have hbit : ∀ i < 8, 5 ≤ i → (1#8 <<< i) &&& (0x1F : Byte) = 0#8 ∧ decodeType (1#8 <<< i) ≠ 0 := by decide
  obtain ⟨hpattern, hkind⟩ := hbit i hi' hi
  obtain ⟨htype, hlow⟩ := header_fields_xor h (1#8 <<< i)
  refine ⟨by simp only [isValidHeader, hlow, hpattern, BitVec.xor_zero], fun he => hkind ?_⟩
  rw [htype] at he
  simpa using he

/-- Changing one byte of a message changes its CRC. -/
theorem crc16_set_ne (m : List Byte) (j : Nat) (hj : j < m.length) (x : Byte) (hx : x ≠ m[j]) :
    crc16 (m.set j x) ≠ crc16 m := by
  intro h
  rw [List.set_eq_take_append_cons_drop, if_pos hj] at h
  conv_rhs at h => rw [← List.take_append_drop j m, List.drop_eq_getElem_cons hj]
  exact hx (crc16_byte_change _ _ _ _ h)

section
variable {c : Config} {k : Kind} {p : List Byte}

/-- The trailer does not match once a byte of the payload or of the trailer has changed. -/
theorem trailer_mismatch_of_set (h l : Byte) (j : Nat) (x : Byte)
    (hj : j < (p ++ le16 (crc16 (h :: l :: p))).length) (hx : x ≠ (p ++ le16 (crc16 (h :: l :: p)))[j]) :
    le16 (crc16 (h :: l :: ((p ++ le16 (crc16 (h :: l :: p))).set j x).take p.length)) ≠
      ((p ++ le16 (crc16 (h :: l :: p))).set j x).drop p.length := by
  rw [List.set_append]
  split
  · next hjp =>
    rw [List.take_left' (List.length_set ..), List.drop_left' (List.length_set ..)]
    rw [List.getElem_append_left hjp] at hx
    exact fun he => crc16_set_ne (h :: l :: p) (j + 2) (by simpa using hjp) x hx (le16_injective _ _ he)
  · next hjp =>
    rw [List.take_left, List.drop_left]
    rw [List.getElem_append_right (by omega)] at hx
    generalize le16 (crc16 (h :: l :: p)) = tr at *
    intro he
    have hset : (tr.set (j - p.length) x)[j - p.length]? = some x :=
      List.getElem?_set_self (by rw [List.length_append] at hj; omega)
    rw [← he] at hset
    exact hx (List.getElem_of_getElem? hset).2.symm

/-- DES sees an inverted bit of the length byte, which no longer agrees with FLEN. -/
theorem desCode_flip_length (hc : c.syncPattern ≤ 0x1F) (hp : p.length ≤ 255) (v : Half) (i : Nat) (hi : i < 8) :
    desCode c k (encodeHeader c k.code) (BitVec.ofNat 8 p.length ^^^ (1#8 <<< i)) (p ++ le16 v) = 5 := by
  have hne : (p ++ le16 v).length ≠ (BitVec.ofNat 8 p.length ^^^ (1#8 <<< i)).toNat + 2 := by
    have hflip := flip_ne (BitVec.ofNat 8 p.length) i hi
    rw [ne_eq, ← BitVec.toNat_inj, lengthByte_toNat hp] at hflip
    rw [List.length_append, le16_length]
    omega
  rw [desCode_of_own_header hc, if_pos hne]

/-- DES sees an inverted bit of the pattern as an invalid header. -/
theorem desCode_flip_pattern (hc : c.syncPattern ≤ 0x1F) (l : Byte) (rest : List Byte) (i : Nat) (hi : i < 5) :
    desCode c k (encodeHeader c k.code ^^^ (1#8 <<< i)) l rest = 3 :=
  if_pos (isValidHeader_flip_pattern c _ i hi (header_fields c k.code hc).2)

/-- DES sees an inverted bit of the header's kind as another kind. -/
theorem desCode_flip_kind (hc : c.syncPattern ≤ 0x1F) (l : Byte) (rest : List Byte) (i : Nat) (hi : 5 ≤ i) (hi' : i < 8) :
    desCode c k (encodeHeader c k.code ^^^ (1#8 <<< i)) l rest = 4 := by
  obtain ⟨htype, hvalid⟩ := header_fields c k.code hc
  obtain ⟨hsame, hother⟩ := header_flip_kind c (encodeHeader c k.code) i hi hi'
  rw [htype] at hother
  rw [desCode, hsame, if_neg (by simp [hvalid]), if_pos hother]

/-- DES sees any changed byte of the payload or of the trailer by the CRC. -/
theorem desCode_set_tail (hc : c.syncPattern ≤ 0x1F) (hp : p.length = kindSize c k) (hsize : kindSize c k ≤ 255) (j : Nat)
    (x : Byte) (hj : j < (p ++ le16 (crc16 (frameBody c k p))).length)
    (hx : x ≠ (p ++ le16 (crc16 (frameBody c k p)))[j]) :
    desCode c k (encodeHeader c k.code) (BitVec.ofNat 8 p.length) ((p ++ le16 (crc16 (frameBody c k p))).set j x) = 7 := by
  rw [desCode_of_own_start hc hp hsize (by simp)]
  exact if_pos (trailer_mismatch_of_set _ _ j x hj hx)

end

/-- Settles O32: the frame in FBUF is SER's, and each place of the inverted bit is one of the four lemmas above. -/
theorem singleBitCorruptionDetected : Obligations.SingleBitCorruptionDetected := by
  intro k s t t' f b i hb hwf ht herr hflen hf hi hcfg' hflen' hholds'
  obtain ⟨hcfg, hsize, hframe⟩ := hasFrame_of_exec_ser k s t hwf ht herr
  have hc := (Config.wf_bounds s.cfg hwf).1
  have hp := (framePayload_length k (s.readBytes s.draws .rbuf 0 (kindSize s.cfg k))).trans (s.readBytes_length _ _ _ _)
  obtain rfl := hf.ext hframe.holds (hflen.trans hframe.flen)
  have hframe' : t'.HasFrame _ := ⟨hholds', by rw [hflen', List.length_set, hframe.flen], by
    rw [hcfg', List.length_set]; exact hframe.fits⟩
  generalize framePayload k (s.readBytes s.draws .rbuf 0 (kindSize s.cfg k)) = p at *
  rcases b with _ | _ | j
  · obtain ⟨u, hu, hcode, -⟩ := hframe'.exec_des (hcfg'.trans hcfg) (by simp) k
    refine ⟨u, hu, fun h => ?_, fun h => ?_, by omega, by omega⟩
    · exact hcode.trans (desCode_flip_pattern hc _ _ i h.2)
    · exact hcode.trans (desCode_flip_kind hc _ _ i h.2 hi)
  · obtain ⟨u, hu, hcode, -⟩ := hframe'.exec_des (hcfg'.trans hcfg) (by simp) k
    exact ⟨u, hu, by omega, by omega, fun _ => hcode.trans (desCode_flip_length hc (by omega) _ i hi), by omega⟩
  · obtain ⟨u, hu, hcode, -⟩ := hframe'.exec_des (hcfg'.trans hcfg) (by simp) k
    refine ⟨u, hu, by omega, by omega, by omega, fun _ => hcode.trans ?_⟩
    exact desCode_set_tail hc hp hsize j _ (Nat.lt_of_succ_lt_succ (Nat.lt_of_succ_lt_succ hb)) (flip_ne _ i hi)

end Sys2Proof.Machine
end

section
/-! SUPPORT. The proofs about the CRC generator and the CRC command (40 R109 to R112): the bytewise register is the bit-serial one,
and what the command leaves on each branch of its range check. -/

namespace Sys2Proof.Machine

/-! ### The bit-serial register (R110) -/

/-- One bit into the bit-serial register: shift left, and XOR with the polynomial if the outgoing bit differs from the message's. -/
def crcBit (r : Half) (bit : Bool) : Half :=
  if (r.getLsbD 15 ^^ bit) = true then (r <<< 1) ^^^ 0x1021 else r <<< 1

/-- The bits of a byte, most significant first. -/
def bitsMsbFirst (b : Byte) : List Bool :=
  [b.getLsbD 7, b.getLsbD 6, b.getLsbD 5, b.getLsbD 4, b.getLsbD 3, b.getLsbD 2, b.getLsbD 1, b.getLsbD 0]

/-- Message bits `v` XORed into the register in advance enter it one by one: a shift takes in the top one, and the rest wait, moved
up by one place. -/
theorem crcShift_xor_eq_crcBit (r v : Half) : crcShift (r ^^^ v) = crcBit r (v.getLsbD 15) ^^^ (v <<< 1) := by
  simp only [crcShift, crcBit, BitVec.getLsbD_xor, BitVec.shiftLeft_xor_distrib]
  split
  · rw [BitVec.xor_assoc, BitVec.xor_comm (v <<< 1), ← BitVec.xor_assoc]
  · rfl

/-- `n` shifts take in the top `n` of the bits XORed in in advance. -/
theorem crcShifts_xor_eq_foldl_crcBit (r v : Half) (n : Nat) (hn : n ≤ 16) :
    Nat.repeat crcShift n (r ^^^ v) = ((List.range n).map fun j => v.getLsbD (15 - j)).foldl crcBit r ^^^ (v <<< n) := by
  induction n with
  | zero => simp [Nat.repeat]
  | succ n ih =>
    have top : (v <<< n).getLsbD 15 = v.getLsbD (15 - n) := by
      have hn' : ¬ 15 < n := by omega
      rw [BitVec.getLsbD_shiftLeft]
      simp [hn']
    rw [Nat.repeat, ih (by omega), crcShift_xor_eq_crcBit, top, List.range_succ, List.map_append, List.foldl_append,
      ← BitVec.shiftLeft_add]
    rfl

/-- A byte into the bytewise register is its 8 bits into the bit-serial one. -/
theorem crcByte_eq_foldl_crcBit (r : Half) (b : Byte) : crcByte r b = (bitsMsbFirst b).foldl crcBit r := by
  have bits : ((List.range 8).map fun j => (b.zeroExtend 16 <<< 8).getLsbD (15 - j)) = bitsMsbFirst b := by
    simp [List.range_succ, bitsMsbFirst]
  have none_left : b.zeroExtend 16 <<< 8 <<< 8 = 0#16 := by
    rw [← BitVec.shiftLeft_add]
    exact BitVec.shiftLeft_eq_zero (by decide)
  rw [crcByte, crcShifts_xor_eq_foldl_crcBit r _ 8 (by decide), bits, none_left, BitVec.xor_zero]

theorem crc16_eq_foldl_crcBit (m : List Byte) : crc16 m = (m.flatMap bitsMsbFirst).foldl crcBit 0xFFFF := by
  rw [List.foldl_flatMap, crc16, funext₂ crcByte_eq_foldl_crcBit]

/-- Settles O21: the check value by computing it, the rest byte by byte. -/
theorem crcIsBitSerialMsbFirst : Obligations.CrcIsBitSerialMsbFirst := ⟨by decide +kernel, crc16_eq_foldl_crcBit⟩

/-! ### The CRC command (R112) -/

theorem exec_crc (s : State) : exec .crc s = .next (State.complete s.crcCommand) := rfl

/-- CRC of a range that leaves FBUF. -/
theorem exec_crc_outside (s : State) (h : fbufSize s.cfg < s.arg0.toNat + s.arg1.toNat) :
    exec .crc s = .next (s.failed 8 s.draws) := by
  rcases s.crcCommand_cases with ⟨-, hcrc⟩ | ⟨hin, -⟩
  · rw [exec_crc, hcrc, State.complete_err]
    rfl
  · omega

/-- CRC of a range inside FBUF. -/
theorem exec_crc_inside (s : State) (h : s.arg0.toNat + s.arg1.toNat ≤ fbufSize s.cfg) :
    exec .crc s = .next ({ s with crcr := crc16 (s.readBytes s.draws .fbuf s.arg0.toNat s.arg1.toNat) }.succeeded
      (s.draws + 1)) := by
  rcases s.crcCommand_cases with ⟨hout, -⟩ | ⟨-, hcrc⟩
  · omega
  · rw [exec_crc, hcrc, State.complete_ok]
    rfl

/-- Settles O23: the two branches of the range check, and the bytes the second one reads. -/
theorem crcCommandChecksumsRange : Obligations.CrcCommandChecksumsRange :=
  ⟨decodeWord_encode .crc, fun s => ⟨fun hout => ⟨s.draws, exec_crc_outside s hout⟩, fun hin =>
    ⟨s.readBytes s.draws .fbuf s.arg0.toNat s.arg1.toNat, s.draws + 1, s.readBytes_length _ _ _ _,
      s.readBytes_yields _ _ _ _, exec_crc_inside s hin⟩⟩⟩

end Sys2Proof.Machine
end

section
/-! SUPPORT. The proofs about reset (70_reset_and_hazards.md): what one step of it leaves (R133). -/

namespace Sys2Proof.Machine

/-! ### One step of reset (R133) -/

/-- STATUS after reset: nothing is pending and TRUNC is 0 (R13). -/
@[simp] theorem State.assertReset_statusWord (s : State) : s.assertReset.statusWord = 0 := by
  simp [State.statusWord]

/-- Reset leaves every buffer byte unwritten. -/
theorem State.assertReset_byteAt (s : State) (o : Nat) : s.assertReset.mem.byteAt o = none := by
  rw [State.assertReset_mem, Memory.byteAt_nil]

/-- Settles O8: the step is `assertReset` after the turn is used, field by field. -/
theorem resetStepLeaves : Obligations.ResetStepLeaves := fun s hreset =>
  ⟨s.useTurn.assertReset, step_reset s hreset, State.assertReset_cmd _, State.assertReset_flen _, State.assertReset_arg0 _,
    State.assertReset_arg1 _, State.assertReset_result _, State.assertReset_crcr _, State.assertReset_trunc _,
    State.assertReset_statusWord _, State.assertReset_errCode _, State.assertReset_pending _, State.assertReset_cfg _,
    State.assertReset_byteAt _, State.assertReset_notes _, State.assertReset_hfault _⟩

end Sys2Proof.Machine
end

section
/-! SUPPORT. The proofs about the codings of 30_encoding.md: the decoder against the encoder (R52 to R55), and the images of the
typed records (R64 to R71). -/

namespace Sys2Proof.Machine

/-- Settles O2: a word that is accepted is put together again from its fields, and the word of a command decodes to it. -/
theorem decodeExactlyInvertsEncode : Obligations.DecodeExactlyInvertsEncode := fun w i _ => decodeWord_eq_ok_iff w i

/-! ### Record images (R64 to R71) -/

@[simp] theorem le32_length (v : Word) : (le32 v).length = 4 := rfl

/-- A record's image has the size of its kind (R64). -/
theorem Record.bytes_length (c : Config) (r : Record) (h : r.wf c = true) : r.bytes.length = kindSize c r.kind := by
  cases r with
  | command r => rfl
  | discovery n ms =>
    have hms : ms.length = c.maxModules := by simpa [Record.wf] using h
    simp only [Record.bytes, Record.kind, kindSize, List.length_cons, moduleBytes_flatMap_length, hms]
    omega
  | telemetry v sourceId timestamp =>
    simp [Record.bytes, Record.kind, kindSize, tvBytes_length v (by simpa [Record.wf] using h)]
  | settings v settingsId =>
    simp [Record.bytes, Record.kind, kindSize, tvBytes_length v (by simpa [Record.wf] using h)]
  | taggedValue v => exact tvBytes_length v (by simpa [Record.wf] using h)

/-- The fields of a Command record stand at the offsets of R65. -/
theorem recordOf_bytes_command (c : Config) (r : CommandRecord) :
    recordOf c .command (Record.command r).bytes = .command r := by
  obtain ⟨type, w, x, y, z, s, t, u, v⟩ := r
  simp only [recordOf, Record.bytes, Record.command.injEq, CommandRecord.mk.injEq]
  exact ⟨le16_of_bytes type, le32_of_bytes w, le32_of_bytes x, le32_of_bytes y, le32_of_bytes z, le16_of_bytes s,
    le16_of_bytes t, le16_of_bytes u, le16_of_bytes v⟩

/-- A well-formed record is read back from its image. -/
theorem recordOf_bytes (c : Config) (r : Record) (h : r.wf c = true) : recordOf c r.kind r.bytes = r := by
  cases r with
  | command r => exact recordOf_bytes_command c r
  | discovery n ms =>
    have hms : ms.length = c.maxModules := by simpa [Record.wf] using h
    have hmodules := modules_at ms [n] []
    simp only [List.append_nil, hms] at hmodules
    exact congrArg (Record.discovery n) hmodules
  | telemetry v sourceId timestamp =>
    have hv : v.storage.length = 16 := by simpa [Record.wf] using h
    have hid := half_le16 sourceId (tvBytes v) (le32 timestamp)
    have htime := word_le32 timestamp (tvBytes v ++ le16 sourceId) []
    simp only [List.length_append, le16_length, tvBytes_length v hv, List.append_nil, List.append_assoc] at hid htime
    simp only [recordOf, Record.kind, Record.bytes, List.append_assoc, tvOf_bytes v hv, hid, htime]
  | settings v settingsId =>
    have hv : v.storage.length = 16 := by simpa [Record.wf] using h
    have hid := half_le16 settingsId (tvBytes v) []
    simp only [tvBytes_length v hv, List.append_nil] at hid
    simp only [recordOf, Record.kind, Record.bytes, tvOf_bytes v hv, hid]
  | taggedValue v =>
    have hv := tvOf_bytes v (by simpa [Record.wf] using h) []
    rw [List.append_nil] at hv
    exact congrArg Record.taggedValue hv

/-- The TV cell read from an image has the image's first 18 bytes. -/
theorem tvBytes_tvOf (p : List Byte) (h : 18 ≤ p.length) : tvBytes (tvOf p) = p.take 18 := by
  rw [tvBytes, tvOf, le16_half p 16 (by omega), ← List.take_add]

/-- The record read from an image has the arrays of the layouts. -/
theorem recordOf_wf (c : Config) (k : Kind) (p : List Byte) (h : p.length = kindSize c k) :
    (recordOf c k p).wf c = true := by
  cases k with
  | command => rfl
  | discovery => simp [recordOf, Record.wf]
  | telemetry | settings | taggedValue => simp [recordOf, Record.wf, tvOf, h, kindSize]

/-- An image of its kind's size is the image of the record read from it: the fields, in order, are all of its bytes. -/
theorem bytes_recordOf (c : Config) (k : Kind) (p : List Byte) (h : p.length = kindSize c k) : (recordOf c k p).bytes = p := by
  have hall : p.take (kindSize c k) = p := List.take_of_length_le h.le
  cases k with
  | discovery =>
    simp only [kindSize] at h hall
    have hcount : [p.getD 0 0] = p.take 1 := by
      cases p with
      | nil => exact absurd h (by rw [List.length_nil]; omega)
      | cons n p => rfl
    rw [recordOf, Record.bytes, modules_bytes p 1 c.maxModules h.ge, ← List.singleton_append, hcount, ← List.take_add, hall]
  | taggedValue => exact (tvBytes_tvOf p h.ge).trans hall
  | command | telemetry | settings =>
    simp only [kindSize] at h hall
    simp (disch := omega) only [recordOf, Record.bytes, tvBytes_tvOf, le16_half, le32_word]
    simp only [List.drop_zero, ← List.take_add, Nat.reduceAdd]
    exact hall

/-- Settles O4: the fields read back as written, and together they are the whole image. -/
theorem recordImagesRoundTrip : Obligations.RecordImagesRoundTrip :=
  ⟨fun c r h => ⟨r.bytes_length c h, recordOf_bytes c r h⟩,
    fun c k p h => ⟨recordOf_wf c k p h, bytes_recordOf c k p h⟩⟩

end Sys2Proof.Machine
end

section
/-! SUPPORT. The proofs about every command at once (60_exceptions.md, 70_reset_and_hazards.md): its effect is a function of its
operands, and from that what it reports, which registers it writes and that nothing else matters to it. -/

namespace Sys2Proof.Machine

/-! ### The effect of a command (R114, R139) -/

/-- The number in ERR.CODE after an outcome (R117). -/
def CmdOutcome.code : CmdOutcome → Byte
  | .ok _ => 0
  | .err c => c.code

/-- TRUNC after an outcome (R117). -/
def CmdOutcome.truncated : CmdOutcome → Bool
  | .ok t => t
  | .err _ => false

/-- What an outcome emits when notifications are enabled (R121). -/
def CmdOutcome.emits : CmdOutcome → List Note
  | .ok true => [{ severity := .warning, reason := 0x10 }]
  | .ok false => []
  | .err c => [{ severity := .error, reason := c.code }]

/-- What a command does to CFC: its outcome, the buffers and FLEN after it, what it writes to RESULT and to CRCR if it writes
them, and the next free draw. -/
structure Effect where
  outcome : CmdOutcome
  mem : Memory
  flen : Half
  result : Option Word
  crcr : Option Half
  draws : Nat

/-- The state that an effect leaves (R31, R117). -/
def Effect.on (e : Effect) (s : State) : State :=
  { s with
    errCode := e.outcome.code, trunc := e.outcome.truncated, pending := none
    notes := s.notes ++ (if s.cfg.logEnable = true then e.outcome.emits else [])
    mem := e.mem, flen := e.flen, result := e.result.getD s.result, crcr := e.crcr.getD s.crcr, draws := e.draws }

/-- The commands that answer in RESULT (R17). -/
def answering : List Instr := [.tvgtag, .tvui32, .tvuu16, .tvuf32, .tvutxt]

/-- What the effect of command `i` on `s` may be: which outcome and which writes it allows (R11, R84). -/
structure Effect.Fits (e : Effect) (i : Instr) (s : State) : Prop where
  truncates : e.outcome.truncated = true ↔ i = .tvptxt false ∧ 15 < s.arg1.toNat
  answers : e.result.isSome = true ↔ i ∈ answering
  checksums : e.crcr.isSome = true ↔ i = .crc ∧ e.outcome.code = 0
  sizes : (∀ k, i ≠ serInstr k) → e.flen = s.flen

/-- The state `o` with the operands of `s`: the parameters but for LOG_ENABLE, the operand registers, the buffers and the coming
draws (R139). -/
def State.withOperands (o s : State) : State :=
  { o with
    cfg := { s.cfg with logEnable := o.cfg.logEnable }
    flen := s.flen, arg0 := s.arg0, arg1 := s.arg1, mem := s.mem, draws := s.draws }

/-- Completing a rule's outcome. The warning of a truncation is the rule's own. -/
theorem State.complete_eq (s : State) (o : CmdOutcome) (ho : o ≠ .ok true) : State.complete (o, s) =
    { s with
      errCode := o.code, trunc := o.truncated, pending := none
      notes := s.notes ++ (if s.cfg.logEnable = true then o.emits else []) } := by
  cases o with
  | err c => exact s.complete_err c
  | ok t =>
    obtain rfl : t = false := by simpa using ho
    simp [State.complete, State.report, State.setOutcome, CmdOutcome.code, CmdOutcome.truncated, CmdOutcome.emits]

/-- The commands with a kind truncate nothing, answer nothing in RESULT and leave CRCR. -/
theorem kindInstr_plain (k : Kind) :
    ∀ i ∈ [serInstr k, desInstr k], i ≠ .tvptxt false ∧ i ∉ answering ∧ i ≠ .crc := by
  cases k <;> decide

/-- So do the commands that pack with nothing to cut off. -/
theorem packing_plain : ∀ i ∈ [Instr.tvclr, .tvpi32, .tvpu16, .tvpf32, .tvptxt true],
    i ≠ .tvptxt false ∧ i ∉ answering ∧ i ≠ .crc := by decide

/-- The commands that answer in RESULT truncate nothing and leave CRCR. -/
theorem answering_plain : ∀ i ∈ answering, i ≠ .tvptxt false ∧ i ≠ .crc := by decide

/-- What a command may do that neither truncates nor answers nor checksums. -/
theorem Effect.Fits.of_plain {e : Effect} {i : Instr} {s : State} (hi : i ≠ .tvptxt false ∧ i ∉ answering ∧ i ≠ .crc)
    (htrunc : e.outcome.truncated = false) (hresult : e.result = none) (hcrcr : e.crcr = none)
    (hflen : (∀ k, i ≠ serInstr k) → e.flen = s.flen) : e.Fits i s := by
  obtain ⟨htext, hanswer, hcrc⟩ := hi
  exact ⟨by simp [htrunc, htext], by simp [hresult, hanswer], by simp [hcrcr, hcrc], hflen⟩

/-- DES checks and copies operands only. -/
theorem State.des_withOperands (k : Kind) (s o : State) : (o.withOperands s).des k =
    ((s.des k).1, { o.withOperands s with mem := (s.des k).2.mem, draws := (s.des k).2.draws }) := by
  have hfbuf : fbufSize (o.withOperands s).cfg = fbufSize s.cfg := rfl
  have hsize : kindSize (o.withOperands s).cfg k = kindSize s.cfg k := rfl
  have hvalid : isValidHeader (o.withOperands s).cfg = isValidHeader s.cfg := rfl
  have hflen : (o.withOperands s).flen = s.flen := rfl
  have hdraws : (o.withOperands s).draws = s.draws := rfl
  have hbyte : (o.withOperands s).readByte = s.readByte := rfl
  have hbytes : (o.withOperands s).readBytes = s.readBytes := rfl
  have hhalf : (o.withOperands s).rd16le = s.rd16le := rfl
  simp only [State.des, hfbuf, hsize, hvalid, hflen, hdraws, hbyte, hbytes, hhalf]
  split_ifs <;> rfl

/-- DES truncates nothing. -/
theorem State.des_truncated (k : Kind) (s : State) : (s.des k).1.truncated = false := by
  rcases s.des_cases k with ⟨c, d, -, -, hdes⟩ | ⟨-, -, hdes⟩ <;> rw [hdes] <;> rfl

/-- The effect of a success on any state. -/
theorem Effect.on_ok (mem : Memory) (flen : Half) (result : Option Word) (crcr : Option Half) (draws : Nat) (s : State) :
    Effect.on ⟨.ok false, mem, flen, result, crcr, draws⟩ s =
      { s with mem := mem, flen := flen, result := result.getD s.result, crcr := crcr.getD s.crcr }.succeeded draws := by
  simp [Effect.on, State.succeeded, CmdOutcome.code, CmdOutcome.truncated, CmdOutcome.emits]

/-- The effect of a pack is `State.packed` (R77, R84). -/
theorem Effect.on_packed (cell : List Byte) (truncated : Bool) (draws : Nat) (s : State) :
    Effect.on ⟨.ok truncated, s.mem.setRange (Buffer.window .rbuf) cell, s.flen, none, none, draws⟩ s =
      s.packed cell truncated draws := by
  cases truncated <;> simp [Effect.on, State.packed, State.succeeded, CmdOutcome.code, CmdOutcome.truncated, CmdOutcome.emits]

section
variable (s : State)

/-- The effect of SER(K) (R91). -/
theorem exec_effect_ser (k : Kind) : ∃ e : Effect, e.Fits (serInstr k) s ∧
    ∀ o : State, exec (serInstr k) (o.withOperands s) = .next (e.on (o.withOperands s)) := by
  have hplain := kindInstr_plain k (serInstr k) (by simp)
  rcases Nat.lt_or_ge s.cfg.maxPayloadSize (kindSize s.cfg k) with hsize | hsize
  · refine ⟨⟨.err .oversizedPayload, s.mem, 0, none, none, s.draws⟩,
      .of_plain hplain rfl rfl rfl fun h => absurd rfl (h k), fun o => ?_⟩
    rw [exec_ser, State.ser_oversized k (o.withOperands s) hsize, State.complete_err]
    rfl
  · refine ⟨⟨.ok false, s.mem.setRange (Buffer.window .fbuf)
        (frameBytes s.cfg k (framePayload k (s.readBytes s.draws .rbuf 0 (kindSize s.cfg k)))),
        BitVec.ofNat 16 (4 + kindSize s.cfg k), none, none, s.draws + 1⟩,
      .of_plain hplain rfl rfl rfl fun h => absurd rfl (h k), fun o => ?_⟩
    rw [exec_ser_fits k (o.withOperands s) hsize, Effect.on_ok]
    rfl

/-- The effect of DES(K) (R97). -/
theorem exec_effect_des (k : Kind) : ∃ e : Effect, e.Fits (desInstr k) s ∧
    ∀ o : State, exec (desInstr k) (o.withOperands s) = .next (e.on (o.withOperands s)) := by
  have htrunc := s.des_truncated k
  refine ⟨⟨(s.des k).1, (s.des k).2.mem, s.flen, none, none, (s.des k).2.draws⟩,
    .of_plain (kindInstr_plain k (desInstr k) (by simp)) htrunc rfl rfl fun _ => rfl, fun o => ?_⟩
  rw [exec_des, State.des_withOperands, State.complete_eq _ _ fun hok => by simp [hok, CmdOutcome.truncated] at htrunc]
  rfl

/-- The effect of CRC (R112). -/
theorem exec_effect_crc : ∃ e : Effect, e.Fits .crc s ∧
    ∀ o : State, exec .crc (o.withOperands s) = .next (e.on (o.withOperands s)) := by
  rcases Nat.lt_or_ge (fbufSize s.cfg) (s.arg0.toNat + s.arg1.toNat) with hout | hin
  · exact ⟨⟨.err .rangeInvalid, s.mem, s.flen, none, none, s.draws⟩,
      ⟨by simp [CmdOutcome.truncated], by simp [answering], by simp [CmdOutcome.code, ErrCode.code], fun _ => rfl⟩,
      fun o => exec_crc_outside (o.withOperands s) hout⟩
  · refine ⟨⟨.ok false, s.mem, s.flen, none,
        some (crc16 (s.readBytes s.draws .fbuf s.arg0.toNat s.arg1.toNat)), s.draws + 1⟩,
      ⟨by simp [CmdOutcome.truncated], by simp [answering], by simp [CmdOutcome.code], fun _ => rfl⟩, fun o => ?_⟩
    rw [Effect.on_ok]
    exact exec_crc_inside (o.withOperands s) hin

/-- The effect of TVPTXT of a text (R84). -/
theorem exec_effect_text : ∃ e : Effect, e.Fits (.tvptxt false) s ∧
    ∀ o : State, exec (.tvptxt false) (o.withOperands s) = .next (e.on (o.withOperands s)) := by
  refine ⟨⟨.ok (decide (15 < s.arg1.toNat)), s.mem.setRange (Buffer.window .rbuf)
      (tvCell (s.readBytes s.draws .tstage 0 (min s.arg1.toNat 15)) tagText), s.flen, none, none, s.draws + 1⟩,
    ⟨by simp [CmdOutcome.truncated], by simp [answering], by simp, fun _ => rfl⟩, fun o => ?_⟩
  exact congrArg Host.Outcome.next ((o.withOperands s).complete_packText.trans (Effect.on_packed _ _ _ _).symm)

end

/-- Every command has an effect that its operands alone determine (R139), and completes with it (R114). -/
theorem exec_effect (i : Instr) (s : State) : ∃ e : Effect, e.Fits i s ∧
    ∀ o : State, exec i (o.withOperands s) = .next (e.on (o.withOperands s)) := by
  rcases exec_cases i s with ⟨k, rfl, -⟩ | ⟨k, rfl, -⟩ | ⟨rfl, -⟩ | ⟨hi, content, tag, -, hexec⟩ | ⟨rfl, -⟩ |
    ⟨hi, n, v, hexec⟩
  · exact exec_effect_ser s k
  · exact exec_effect_des s k
  · exact exec_effect_crc s
  · refine ⟨⟨.ok false, s.mem.setRange (Buffer.window .rbuf) (tvCell content tag), s.flen, none, none, s.draws⟩,
      .of_plain (packing_plain i hi) rfl rfl rfl fun _ => rfl, fun o => ?_⟩
    exact (hexec (o.withOperands s) rfl).trans
      (congrArg _ (((o.withOperands s).complete_pack content tag).trans (Effect.on_packed _ _ _ _).symm))
  · exact exec_effect_text s
  · obtain ⟨htext, hcrc⟩ := answering_plain i hi
    refine ⟨⟨.ok false, s.mem, s.flen, some v, none, s.draws + n⟩,
      ⟨by simp [CmdOutcome.truncated, htext], iff_of_true rfl hi, by simp [hcrc], fun _ => rfl⟩, fun o => ?_⟩
    rw [hexec (o.withOperands s) rfl rfl, Effect.on_ok]
    exact (o.withOperands s).finish_answer n v

/-- What a command leaves is its effect. -/
theorem exec_eq_on (i : Instr) (s t : State) (h : exec i s = .next t) : ∃ e : Effect, e.Fits i s ∧ t = e.on s := by
  obtain ⟨e, hfits, hexec⟩ := exec_effect i s
  exact ⟨e, hfits, Host.Outcome.next.inj (h.symm.trans (hexec s))⟩

/-! ### What follows of each command -/

/-- Settles O14: an effect ends with nothing pending. -/
theorem everyCommandCompletes : Obligations.EveryCommandCompletes := by
  intro i s
  obtain ⟨e, -, hexec⟩ := exec_effect i s
  exact ⟨e.on s, hexec s, rfl⟩

/-- Settles O17: an effect writes RESULT, CRCR and FLEN only for the commands it fits, and no other register. -/
theorem commandsKeepOtherRegisters : Obligations.CommandsKeepOtherRegisters := by
  intro i s t h
  obtain ⟨e, hfits, rfl⟩ := exec_eq_on i s t h
  refine ⟨rfl, rfl, rfl, rfl, rfl, rfl, rfl, rfl, fun hi => ?_, fun hi => ?_, hfits.sizes⟩
  · have hnone : e.result = none := by simpa using mt hfits.answers.1 hi
    simp [Effect.on, hnone]
  · have hnone : e.crcr = none := by simpa using mt hfits.checksums.1 fun hcrc => hi hcrc.1
    simp [Effect.on, hnone]

/-- The codes of R115. -/
theorem ErrCode.code_bounds (c : ErrCode) : 1 ≤ c.code.toNat ∧ c.code.toNat ≤ 9 := by cases c <;> decide

/-- Settles O15: each outcome's code, TRUNC and notification are those of R117 and R121. -/
theorem completionReportsOutcome : Obligations.CompletionReportsOutcome := by
  intro i s t h
  obtain ⟨e, hfits, rfl⟩ := exec_eq_on i s t h
  refine ⟨hfits.truncates, ?_⟩
  obtain ⟨outcome, mem, flen, result, crcr, draws⟩ := e
  cases outcome with
  | ok truncated => cases truncated <;> simp [Effect.on, CmdOutcome.code, CmdOutcome.truncated, CmdOutcome.emits]
  | err c =>
    obtain ⟨hlow, hhigh⟩ := c.code_bounds
    exact ⟨fun htrunc => absurd htrunc (by simp [Effect.on, CmdOutcome.truncated]), fun hok => absurd hok c.code_ne_zero,
      fun _ => ⟨hlow, hhigh, rfl⟩⟩

/-- Settles O19: LOG_ENABLE is no operand, so the effect is the same. -/
theorem disabledLogChangesNothingElse : Obligations.DisabledLogChangesNothingElse := by
  intro i s t h
  obtain ⟨e, -, hexec⟩ := exec_effect i s
  obtain rfl : t = e.on s := Host.Outcome.next.inj (h.symm.trans (hexec s))
  refine (hexec { s with cfg := { s.cfg with logEnable := false } }).trans (congrArg _ ?_)
  simp [Effect.on, State.withOperands]

/-- Settles O20: the second state is one with the operands of the first, so the effect is the same. -/
theorem resultDependsOnOperandsOnly : Obligations.ResultDependsOnOperandsOnly := by
  intro i s₁ s₂ t₁ t₂ hcfg hflen harg0 harg1 hmem hdraws h₁ h₂
  obtain ⟨e, hfits, hexec⟩ := exec_effect i s₁
  have hoperands : s₂.withOperands s₁ = s₂ := by ext1 <;> simp [State.withOperands, *]
  obtain rfl : t₁ = e.on s₁ := Host.Outcome.next.inj (h₁.symm.trans (hexec s₁))
  obtain rfl : t₂ = e.on s₂ := Host.Outcome.next.inj (h₂.symm.trans (hoperands ▸ hexec s₂))
  refine ⟨rfl, rfl, rfl, rfl, fun hi => ?_, fun hi hok => ?_⟩
  · obtain ⟨v, hv⟩ := Option.isSome_iff_exists.1 (hfits.answers.2 hi)
    simp [Effect.on, hv]
  · obtain ⟨v, hv⟩ := Option.isSome_iff_exists.1 (hfits.checksums.2 ⟨hi, hok⟩)
    simp [Effect.on, hv]

end Sys2Proof.Machine
end

section
/-! SUPPORT. The proofs about the accesses of the host (20_memory.md, 60_exceptions.md section 3, 70_reset_and_hazards.md section
3): what an illegal one records, what a legal one reads or stores, and what no read changes. -/

namespace Sys2Proof.Machine

/-! ### Accesses that only record a fault (R38, R40, R123, R137) -/

/-- Raising a host fault changes HFAULT alone. -/
theorem State.raiseHostFault_eq (s : State) (r : HostFaultReason) (o : Nat) (w : Width) (b : Bool) :
    s.raiseHostFault r o w b = { s with hfault := (s.raiseHostFault r o w b).hfault } := by
  unfold State.raiseHostFault
  split <;> rfl

/-- A register access that is not a word at a word's offset is illegal (R38). -/
theorem classify_register_badAccess (c : Config) (o : Nat) (w : Width) (ho : o < 0x24) (hw : ¬ (w = .w32 ∧ 4 ∣ o)) :
    classify c o w = .error .badAccess := by
  rw [Nat.dvd_iff_mod_eq_zero] at hw
  rw [classify, if_pos ho, if_neg hw]

section
variable {s : State} {off : Nat} {w : Width} {v : Word} {rest : List HostOp} {r : HostFaultReason}

/-- An illegal write has no effect but its record. -/
theorem step_write_fault (hhost : s.hostNext) (ho : off < 4096) (hjudge : s.judge off w true = .error r)
    (hqueue : s.hostQueue = .write (s.cfg.base + off) w v :: rest) :
    ∃ t, step s = .next t ∧ t = { s.hostMoved rest with hfault := t.hfault } ∧
      s.FaultAdded t { reason := r, offset := off, width := w, isWrite := true } := by
  have hwrite : s.useTurn.hostWrite off w v = s.useTurn.raiseHostFault r off w true := by
    have hjudge' : s.useTurn.judge off w true = .error r := hjudge
    simp only [State.hostWrite, hjudge']
  refine ⟨_, step_host_write s off w v rest hhost ho hqueue, ?_, ?_⟩
  · rw [hwrite, State.raiseHostFault_eq]
    rfl
  · rw [hwrite]
    exact s.useTurn.mem_hfault_raise r off w true

/-- An illegal read has no effect but its record, and gives the host some value. -/
theorem step_read_fault (hhost : s.hostNext) (ho : off < 4096) (hjudge : s.judge off w false = .error r)
    (hqueue : s.hostQueue = .read (s.cfg.base + off) w :: rest) :
    ∃ t x, step s = .next t ∧
      t = { s.hostMoved rest with
        hfault := t.hfault, draws := t.draws, readLog := s.readLog ++ [{ offset := off, width := w, value := x }] } ∧
      s.FaultAdded t { reason := r, offset := off, width := w, isWrite := false } := by
  have hread := s.useTurn.hostRead_error off w r hjudge
  refine ⟨_, w.mask (Config.freeWord s.draws), step_host_read s off w rest hhost ho hqueue, ?_, ?_⟩
  · rw [hread, State.raiseHostFault_eq]
    rfl
  · rw [hread]
    exact State.mem_hfault_raise _ r off w false

end

/-- Settles O50: a register offset is judged by R38 alone. -/
theorem registerAccessesMustBeWords : Obligations.RegisterAccessesMustBeWords := by
  intro s off w v rest hhost hpend ho hw
  have hjudge (b : Bool) : s.judge off w b = .error .badAccess :=
    (s.judge_idle off w b hpend).trans (classify_register_badAccess s.cfg off w ho hw)
  exact ⟨step_write_fault hhost (by omega) (hjudge true), step_read_fault hhost (by omega) (hjudge false)⟩

/-- Settles O51: no buffer is found at an unmapped offset. -/
theorem unmappedAccessesRecorded : Obligations.UnmappedAccessesRecorded := by
  intro s off w v rest hhost hpend hlow ho hmap
  have hjudge (b : Bool) : s.judge off w b = .error .unmapped :=
    (s.judge_idle off w b hpend).trans (classify_unmapped s.cfg hhost.1 off w hlow hmap)
  exact ⟨step_write_fault hhost ho (hjudge true), step_read_fault hhost ho (hjudge false)⟩

/-- Settles O52: the hazard is judged before everything else. -/
theorem accessWhileBusyIsHazard : Obligations.AccessWhileBusyIsHazard := by
  intro s off w v rest hhost hpend ho
  refine ⟨step_write_fault hhost ho (s.judge_busy off w true hpend (by simp)), fun hqueue hn => ?_⟩
  exact step_read_fault hhost ho (s.judge_busy off w false hpend fun h => hn h.2) hqueue

/-- Settles O56: the host's step asks for the region first. -/
theorem accessOutsideRegionStops : Obligations.AccessOutsideRegionStops := by
  intro s addr w v rest hhost hout hqueue
  have hregion : inRegion s.cfg addr = false := by
    simp only [inRegion, Bool.and_eq_false_iff, decide_eq_false_iff_not]
    omega
  rw [step_host s hhost]
  rcases hqueue with hqueue | hqueue <;> simp [hostStep, hqueue, hregion]

/-! ### Accesses to the buffers (R28, R39, R43) -/

theorem Width.bytes_le_four (w : Width) : w.bytes ≤ 4 := by cases w <;> decide

/-- An access to a buffer while idle (R39). -/
theorem State.judge_buffer (s : State) (b : Buffer) (i : Nat) (w : Width) (isWrite : Bool) (hwf : s.cfg.wf = true)
    (hpend : s.pending = none) (hi : i < Buffer.size s.cfg b) : s.judge (b.window + i) w isWrite =
      if (b.window + i) % w.bytes = 0 ∧ i + w.bytes ≤ Buffer.size s.cfg b then .ok (.buffer b i) else .error .badAccess :=
  (s.judge_idle _ w isWrite hpend).trans (classify_buffer s.cfg hwf b i w hi)

/-- Settles O49: the access is judged by R39, and moves its bytes or records BadAccess. -/
theorem bufferAccessesLittleEndianOrRefused : Obligations.BufferAccessesLittleEndianOrRefused := by
  intro s b i w v rest hhost hpend hi
  have hjudge (isWrite : Bool) := s.judge_buffer b i w isWrite hhost.1 hpend hi
  have ho : b.window + i < 4096 := by
    have := (buffer_bounds s.cfg hhost.1 b).2.1
    omega
  by_cases hlegal : (b.window + i) % w.bytes = 0 ∧ i + w.bytes ≤ Buffer.size s.cfg b
  · simp only [if_pos hlegal] at hjudge ⊢
    refine ⟨fun hqueue => ?_, fun hqueue => ?_⟩
    · have hlen := s.readBytes_length s.draws b i w.bytes
      refine ⟨wordOfBytes (s.readBytes s.draws b i w.bytes), s.draws + 1, s.readBytes s.draws b i w.bytes, hlen,
        s.readBytes_yields _ _ _ _, wordOfBytes_toNat _ (hlen.trans_le w.bytes_le_four), ?_⟩
      rw [step_host_read s _ w rest hhost ho hqueue, s.useTurn.hostRead_buffer _ w b i (hjudge false)]
      rfl
    · have hwrite : s.useTurn.hostWrite (b.window + i) w v = s.useTurn.writeBytes b i (bytesOfWord w.bytes v) := by
        have hjudge' : s.useTurn.judge (b.window + i) w true = .ok (.buffer b i) := hjudge true
        simp only [State.hostWrite, hjudge']
      refine ⟨_, step_host_write s _ w v rest hhost ho hqueue, by rw [hwrite]; rfl, fun k hk => ?_, fun o hout => ?_⟩
      · rw [hwrite, State.writeBytes_mem, Memory.byteAt_setRange_inside _ _ _ k (by simpa using hk), bytesOfWord_getElem]
      · rw [hwrite, State.writeBytes_mem, Memory.byteAt_setRange_outside _ _ _ o (by simpa using hout)]
        rfl
  · simp only [if_neg hlegal] at hjudge ⊢
    refine ⟨fun hqueue => ?_, fun hqueue => step_write_fault hhost ho (hjudge true) hqueue⟩
    obtain ⟨t, x, hstep, ht, hfault⟩ := step_read_fault hhost ho (hjudge false) hqueue
    exact ⟨x, t.draws, t.hfault, hstep.trans (congrArg _ ht), hfault⟩

/-- Settles O55: a byte of the range is the one stored there, and any other is the old one. -/
theorem writtenBytesReadBack : Obligations.WrittenBytesReadBack := by
  refine fun s b i v t => ⟨fun j hj => ?_, fun b' j hout => ?_⟩
  · exact State.readByte_of_holds _ t b i v (s.writeBytes_holds b i v) j hj
  · exact State.readByte_congr _ s t b' j (Memory.byteAt_setRange_outside _ _ _ _ hout)

/-! ### Reads of the registers (R12 to R19) -/

/-- STATUS as a number (R13). -/
theorem State.statusWord_toNat (s : State) :
    s.statusWord.toNat = (if s.trunc = true then 2 else 0) + (if s.pending = none then 0 else 1) := by
  rw [State.statusWord]
  cases s.trunc <;> cases s.pending <;> simp

/-- BUSY is set exactly while a command is pending (R13). -/
theorem State.statusWord_busy (s : State) : s.statusWord.getLsbD 0 = s.pending.isSome := by
  simp [State.statusWord]

/-- A field alone in a word is its number (R14, R15, R18). -/
theorem toNat_zeroExtend_word {n : Nat} (x : BitVec n) (hn : n ≤ 32) : (x.zeroExtend 32).toNat = x.toNat :=
  BitVec.toNat_setWidth_of_le hn

/-- A field of at most 8 bits fills a byte up. -/
theorem zeroExtend_byte {n : Nat} (x : BitVec n) (hn : n ≤ 8) :
    x.zeroExtend 32 = (x.zeroExtend 8).zeroExtend 32 ∧ (x.zeroExtend 8).toNat = x.toNat := by
  have hbyte : (x.zeroExtend 8).toNat = x.toNat := BitVec.toNat_setWidth_of_le hn
  refine ⟨BitVec.eq_of_toNat_eq ?_, hbyte⟩
  rw [toNat_zeroExtend_word x (by omega), toNat_zeroExtend_word _ (by decide), hbyte]

/-- PARAM as a number (R19). -/
theorem paramWord_toNat (c : Config) (hwf : c.wf = true) : (paramWord c).toNat =
    c.syncPattern + 2 ^ 8 * c.maxPayloadSize + 2 ^ 16 * c.maxModules + 2 ^ 24 * (if c.logEnable = true then 1 else 0) := by
  obtain ⟨hsync, hpay, -, hmod, -⟩ := Config.wf_bounds c hwf
  obtain ⟨hsync32, hsync8⟩ := zeroExtend_byte (BitVec.ofNat 5 c.syncPattern) (by decide)
  obtain ⟨hlog32, hlog8⟩ := zeroExtend_byte (BitVec.ofBool c.logEnable) (by decide)
  have hlog : (BitVec.ofBool c.logEnable).toNat = if c.logEnable = true then 1 else 0 := by cases c.logEnable <;> rfl
  rw [paramWord, hsync32, hlog32, le32_toNat, hsync8, hlog8, hlog]
  simp only [BitVec.toNat_ofNat]
  omega

/-- A 4-byte read of a register while idle, or of STATUS or PARAM at any time, is legal (R38, R137). -/
theorem State.judge_register (s : State) (o : Nat) (ho : o < 0x24) (halign : o % 4 = 0)
    (hidle : s.pending = none ∨ o = 0x004 ∨ o = 0x020) : s.judge o .w32 false = .ok (.register (regAt (o / 4))) := by
  have hallowed : (s.pending.isSome && !allowedWhileBusy o .w32 false) = false := by
    rcases hidle with hpend | rfl | rfl
    · simp [hpend]
    · simp [allowedWhileBusy, Reg.offset]
    · simp [allowedWhileBusy, Reg.offset]
  rw [State.judge, hallowed, if_neg (by decide), classify, if_pos ho, if_pos ⟨rfl, halign⟩]

/-- Settles O48: the read is that register's, and each register is its field. -/
theorem registerReadsReturnFields : Obligations.RegisterReadsReturnFields := by
  intro s off rest hhost hqueue hmem hidle
  have hoff : ∀ o ∈ [0x000, 0x004, 0x008, 0x00C, 0x010, 0x014, 0x018, 0x01C, 0x020], o < 0x24 ∧ o % 4 = 0 := by decide
  obtain ⟨ho, halign⟩ := hoff off hmem
  refine ⟨s.regWord (regAt (off / 4)), s.draws + 1, ?_, ?_⟩
  · rw [step_host_read s off .w32 rest hhost (by omega) hqueue,
      s.useTurn.hostRead_register off .w32 _ (s.judge_register off ho halign hidle)]
    rfl
  · refine ⟨?_, ?_, ?_, ?_, ?_, ?_, ?_, ?_, ?_⟩ <;> rintro rfl
    · rfl
    · exact s.statusWord_toNat
    · exact toNat_zeroExtend_word s.errCode (by decide)
    · exact toNat_zeroExtend_word s.flen (by decide)
    · rfl
    · rfl
    · rfl
    · exact toNat_zeroExtend_word s.crcr (by decide)
    · exact paramWord_toNat s.cfg hhost.1

/-! ### What no read changes (R44, R47) -/

/-- CFC as it is in `s`, with the host's side of `t`: the accesses still to make, the schedule, what the reads returned, the draws
and HFAULT. -/
def State.withHostSide (s t : State) : State :=
  { s with hostQueue := t.hostQueue, turns := t.turns, readLog := t.readLog, draws := t.draws, hfault := t.hfault }

/-- A read touches the host's side alone (R44). -/
theorem State.hostRead_withHostSide (s : State) (o : Nat) (w : Width) :
    s.hostRead o w = s.withHostSide (s.hostRead o w) ∧ (s.hostRead o w).turns = s.turns := by
  obtain ⟨v, f, hread, -⟩ := s.hostRead_frame o w
  rw [hread]
  exact ⟨rfl, rfl⟩

/-- STATUS reads as it is at any time (R13, R137). -/
theorem State.readValue_status (s : State) :
    s.readValue (Reg.offset .status) .w32 = s.statusWord ∧
    s.hostRead (Reg.offset .status) .w32 = s.logRead (Reg.offset .status) .w32 s.statusWord := by
  have hjudge := s.judge_register 0x004 (by decide) (by decide) (.inr (.inl rfl))
  exact ⟨by simp only [State.readValue, Reg.offset, hjudge]; rfl, s.hostRead_register _ _ _ hjudge⟩

/-- POLL reads STATUS and is over when nothing is pending (R57). -/
theorem hostStep_poll (s : State) (rest : List HostOp) (hqueue : s.hostQueue = .poll :: rest) :
    hostStep s = .next { s.logRead (Reg.offset .status) .w32 s.statusWord with
      hostQueue := if s.pending = none then rest else .poll :: rest } := by
  obtain ⟨hvalue, hread⟩ := s.readValue_status
  simp only [hostStep, hqueue, hvalue, hread, s.statusWord_busy]
  cases s.pending with
  | none => rfl
  | some w =>
    rw [if_neg (Option.some_ne_none w), ← hqueue]
    rfl

/-- Settles O54: the step is the read of STATUS, which shows whether a command is pending. -/
theorem pollEndsExactlyWhenIdle : Obligations.PollEndsExactlyWhenIdle := by
  intro s rest hhost hqueue
  refine ⟨_, (step_host s hhost).trans (hostStep_poll s.useTurn rest hqueue), rfl, ?_, ?_, rfl⟩
  · by_cases hpend : s.pending = none <;> simp [hpend]
  · by_cases hpend : s.pending = none <;> simp [hpend]

/-- The host's step on a read or a POLL touches the host's side alone. -/
theorem hostStep_read_withHostSide (s t : State) (op : HostOp) (rest : List HostOp) (hqueue : s.hostQueue = op :: rest)
    (hop : op = .poll ∨ ∃ a w, op = .read a w) (h : hostStep s = .next t) : t = s.withHostSide t := by
  rcases hop with rfl | ⟨a, w, rfl⟩
  · rw [hostStep_poll s rest hqueue, Host.Outcome.next.injEq] at h
    subst h
    rfl
  · simp only [hostStep, hqueue] at h
    split at h
    · rw [Host.Outcome.next.injEq, (s.hostRead_withHostSide _ _).1] at h
      subst h
      rfl
    · cases h

/-- Settles O53: the host's side holds no register, no buffer byte, no PENDING and no NOTES. -/
theorem hostReadsHaveNoSideEffect : Obligations.HostReadsHaveNoSideEffect := by
  intro s t op rest hhost hqueue hop hstep
  rw [step_host s hhost] at hstep
  rw [hostStep_read_withHostSide s.useTurn t op rest hqueue hop hstep]
  exact ⟨rfl, rfl, rfl, rfl, rfl, rfl, rfl, rfl, rfl, rfl, rfl, rfl⟩

end Sys2Proof.Machine
end

section
/-! SUPPORT. The proofs about every step (10_state.md): the step that runs the pending command, the invariant, what no step takes
back, and the steps until a pending command completes. -/

namespace Sys2Proof.Machine

/-! ### The engine's step (R31, R55) -/

/-- A word laid out as a table word is that word. -/
theorem tableWord_toNat (w : Word) : tableWord 32 w.toNat = w := by
  rw [tableWord, Nat.mod_eq_of_lt w.isLt, BitVec.ofNat_toNat, BitVec.setWidth_eq]

/-- The engine's turn on a word that was laid out leaves the state in which that word was issued. -/
theorem State.withFetchWord_useTurn (s : State) (w : Word) :
    (s.withFetchWord 32 w.toNat).useTurn = { s with cmd := w, pending := some w } := by
  rw [State.withFetchWord, tableWord_toNat]
  rfl

/-- Settles O6: on the engine's turn the pending word is decoded, and a word laid out is the pending one. -/
theorem stepRunsPendingCommand : Obligations.StepRunsPendingCommand := by
  refine ⟨fun s w i hengine hpend hdec => ?_, fun s i hwf => ?_⟩
  · exact (step_engine_pending s w hengine hpend).trans (executeWord_ok w i s.useTurn hdec)
  · have hpend : (s.withFetchWord 32 (encode i).toNat).pending = some (encode i) := congrArg some (tableWord_toNat _)
    have hengine : (s.withFetchWord 32 (encode i).toNat).engineNext := ⟨hwf, .inl rfl⟩
    rw [step_engine_pending _ (encode i) hengine hpend, executeWord_ok _ i _ (decodeWord_encode i),
      State.withFetchWord_useTurn]

/-- The buffers' bytes as the invariant wants them: in canonical form, and only inside the buffers (R51). -/
def Memory.Legal (c : Config) (m : Memory) : Prop := m.wf ∧ ∀ o v, m.byteAt o = some v → Mapped c o

/-- A store inside a buffer keeps the buffers legal. -/
theorem Memory.Legal.setRange {c : Config} {m : Memory} (h : m.Legal c) (b : Buffer) (i : Nat) (bs : List Byte)
    (hfits : i + bs.length ≤ Buffer.size c b) : (Memory.setRange m (b.window + i) bs).Legal c := by
  refine ⟨Memory.setRange_wf m _ bs h.1, fun o v hv => ?_⟩
  rw [Memory.byteAt_setRange] at hv
  split at hv
  · next hin => exact ⟨b, o - b.window, by omega, by omega⟩
  · exact h.2 o v hv

/-- A store that a command's rule names, if the command succeeds, is inside the buffer (R8). -/
theorem StoresTo.fits {i : Instr} {s t : State} {b : Buffer} {n : Nat} (hstore : StoresTo s.cfg i b n)
    (h : exec i s = .next t) (hok : t.errCode = 0) : n ≤ Buffer.size s.cfg b := by
  cases hstore with
  | ser k =>
    have hsize := (exec_ser_ok k s t h hok).1
    simp only [Buffer.size, fbufSize_eq]
    omega
  | des k => exact kindSize_le_rbufSize s.cfg k
  | pack _ _ => exact kindSize_le_rbufSize s.cfg .taggedValue

/-- A command keeps the buffers legal. -/
theorem exec_mem_legal (i : Instr) (s t : State) (h : exec i s = .next t) (hmem : s.mem.Legal s.cfg) :
    t.mem.Legal s.cfg := by
  rcases exec_mem_cases i s t h with hsame | ⟨hok, b, bs, hstore, hset⟩
  · rwa [hsame]
  · rw [hset]
    exact hmem.setRange b 0 bs (by simpa using hstore.fits h hok)

/-- Executing a word, a command or not, has an effect, and keeps the buffers legal (R55). -/
theorem executeWord_effect (w : Word) (s t : State) (h : executeWord w s = .next t) :
    ∃ e : Effect, t = e.on s ∧ (s.mem.Legal s.cfg → e.mem.Legal s.cfg) := by
  cases hdec : decodeWord w with
  | ok i =>
    rw [executeWord_ok w i s hdec] at h
    obtain ⟨e, -, rfl⟩ := exec_eq_on i s t h
    exact ⟨e, rfl, exec_mem_legal i s _ h⟩
  | error err =>
    rw [executeWord_error w err s hdec, Host.Outcome.next.injEq] at h
    exact ⟨⟨.err .illegalCommand, s.mem, s.flen, none, none, s.draws⟩, h.symm, id⟩

/-- The engine's step does nothing, or has an effect. -/
theorem engineStep_cases (s t : State) (h : engineStep s = .next t) :
    t = s ∨ ∃ e : Effect, t = e.on s ∧ (s.mem.Legal s.cfg → e.mem.Legal s.cfg) := by
  unfold engineStep at h
  split at h
  · exact .inr (executeWord_effect _ s t h)
  · exact .inl (Host.Outcome.next.inj h).symm

/-! ### The invariant (R14, R30, R34, R51, R121, R122) -/

/-- Settles O10: every register is 0, and every list is empty. -/
theorem resetMeetsInvariant : Obligations.ResetMeetsInvariant := by
  have hinv (c : Config) : (State.resetOf c).Inv :=
    { memCanonical := List.Pairwise.nil
      memMapped := fun o v hv => by simp [State.resetOf] at hv
      errRange := Nat.zero_le 9
      truncIsOk := fun _ => rfl
      pendingIsCmd := fun w hw => by simp [State.resetOf] at hw
      notesLegal := fun n hn => by simp [State.resetOf] at hn
      silentIfDisabled := fun _ => rfl
      hfaultSet := List.nodup_nil }
  exact ⟨hinv, hinv Config.vectors⟩

/-- A code of an outcome is one of R14. -/
theorem CmdOutcome.code_le_nine (o : CmdOutcome) : o.code.toNat ≤ 9 := by
  cases o with
  | ok truncated => exact Nat.zero_le 9
  | err c => exact c.code_bounds.2

/-- Only a success is truncated (R117). -/
theorem CmdOutcome.code_of_truncated (o : CmdOutcome) (h : o.truncated = true) : o.code = 0 := by
  cases o with
  | ok truncated => rfl
  | err c => cases h

/-- Every outcome emits notifications of R121 only. -/
theorem CmdOutcome.emits_legal (o : CmdOutcome) : ∀ n ∈ o.emits, n.Legal := by
  cases o with
  | ok truncated =>
    cases truncated with
    | true => simp [CmdOutcome.emits, Note.Legal]
    | false => simp [CmdOutcome.emits]
  | err c => simpa [CmdOutcome.emits, Note.Legal] using c.code_bounds

/-- An effect keeps the invariant if it keeps the buffers legal. -/
theorem State.Inv.effect {s : State} (h : s.Inv) (e : Effect) (hmem : e.mem.Legal s.cfg) : (e.on s).Inv where
  memCanonical := hmem.1
  memMapped := hmem.2
  errRange := e.outcome.code_le_nine
  truncIsOk := e.outcome.code_of_truncated
  pendingIsCmd := fun w hw => by simp [Effect.on] at hw
  notesLegal := by
    intro n hn
    rcases List.mem_append.1 hn with hold | hnew
    · exact h.notesLegal n hold
    · split at hnew
      · exact e.outcome.emits_legal n hnew
      · simp at hnew
  silentIfDisabled := fun hlog => by
    have hlog' : s.cfg.logEnable = false := hlog
    simp [Effect.on, hlog', h.silentIfDisabled hlog']
  hfaultSet := h.hfaultSet

/-- The schedule is no part of the invariant. -/
theorem State.Inv.useTurn {s : State} (h : s.Inv) : s.useTurn.Inv := { h with }

/-- Reset keeps the invariant (R133). -/
theorem State.Inv.assertReset {s : State} (h : s.Inv) : s.assertReset.Inv :=
  { resetMeetsInvariant.1 s.cfg with
    notesLegal := h.notesLegal, silentIfDisabled := h.silentIfDisabled, hfaultSet := h.hfaultSet }

/-- A write to a register keeps the invariant: CMD and PENDING take the same word (R30). -/
theorem State.Inv.writeReg {s : State} (h : s.Inv) (r : Reg) (v : Word) (q : List HostOp) :
    State.Inv { s.writeReg r v with hostQueue := q } := by
  cases r with
  | cmd => exact { h with pendingIsCmd := fun w hw => Option.some.inj hw }
  | status | err | flen | arg0 | arg1 | result | crcr | param => exact { h with }

/-- The engine's step keeps the invariant. -/
theorem State.Inv.of_engineStep {s t : State} (h : s.Inv) (hstep : engineStep s = .next t) : t.Inv := by
  rcases engineStep_cases s t hstep with rfl | ⟨e, rfl, hmem⟩
  · exact h
  · exact h.effect e (hmem ⟨h.memCanonical, h.memMapped⟩)

/-- The host's step keeps the invariant. -/
theorem State.Inv.of_hostStep {s t : State} (h : s.Inv) (hstep : hostStep s = .next t) : t.Inv := by
  rcases hostStep_cases s t hstep with rfl | ⟨q, o, w, v, f, rfl, hfault⟩ | ⟨q, r, o, w, rfl⟩ | ⟨q, r, v, -, rfl⟩ |
    ⟨q, b, i, w, v, -, hfits, rfl⟩
  · exact h
  · refine { h with hfaultSet := ?_ }
    rcases hfault with rfl | ⟨r, rfl⟩
    · exact h.hfaultSet
    · exact s.hfault_raise_nodup r o w false h.hfaultSet
  · rw [State.raiseHostFault_eq]
    exact { h with hfaultSet := s.hfault_raise_nodup r o w true h.hfaultSet }
  · exact h.writeReg r v q
  · have hmem := Memory.Legal.setRange ⟨h.memCanonical, h.memMapped⟩ b i (bytesOfWord w.bytes v) (by simpa using hfits)
    exact { h with memCanonical := hmem.1, memMapped := hmem.2 }

/-- Settles O11: the step is one agent's, and each keeps the invariant. -/
theorem everyStepKeepsInvariant : Obligations.EveryStepKeepsInvariant := by
  intro s t hinv hstep
  obtain ⟨-, ⟨-, hengine⟩ | ⟨-, hhost⟩ | ⟨-, rfl⟩⟩ := step_cases s t hstep
  · exact hinv.useTurn.of_engineStep hengine
  · exact hinv.useTurn.of_hostStep hhost
  · exact hinv.useTurn.assertReset

/-! ### What no step takes back (R6, R33, R34) -/

/-- The engine's step appends notifications and keeps HFAULT and the parameters. -/
theorem engineStep_appends (s t : State) (h : engineStep s = .next t) :
    s.notes <+: t.notes ∧ s.hfault <+: t.hfault ∧ t.cfg = s.cfg := by
  rcases engineStep_cases s t h with rfl | ⟨e, rfl, -⟩
  · exact ⟨List.prefix_rfl, List.prefix_rfl, rfl⟩
  · exact ⟨List.prefix_append _ _, List.prefix_rfl, rfl⟩

/-- The host's step appends records to HFAULT and keeps NOTES and the parameters. -/
theorem hostStep_appends (s t : State) (h : hostStep s = .next t) :
    s.notes <+: t.notes ∧ s.hfault <+: t.hfault ∧ t.cfg = s.cfg := by
  rcases hostStep_cases s t h with rfl | ⟨q, o, w, v, f, rfl, hfault⟩ | ⟨q, r, o, w, rfl⟩ | ⟨q, r, v, -, rfl⟩ |
    ⟨q, b, i, w, v, -, -, rfl⟩
  · exact ⟨List.prefix_rfl, List.prefix_rfl, rfl⟩
  · rcases hfault with rfl | ⟨r, rfl⟩
    · exact ⟨List.prefix_rfl, List.prefix_rfl, rfl⟩
    · exact ⟨List.prefix_rfl, s.hfault_raise_prefix r o w false, rfl⟩
  · rw [State.raiseHostFault_eq]
    exact ⟨List.prefix_rfl, s.hfault_raise_prefix r o w true, rfl⟩
  · cases r <;> exact ⟨List.prefix_rfl, List.prefix_rfl, rfl⟩
  · exact ⟨List.prefix_rfl, List.prefix_rfl, rfl⟩

/-- Settles O12: the engine and the host only append, and reset keeps all three. -/
theorem stepOnlyAppendsNotesAndFaults : Obligations.StepOnlyAppendsNotesAndFaults := by
  intro s t hstep
  obtain ⟨-, ⟨-, hengine⟩ | ⟨-, hhost⟩ | ⟨-, rfl⟩⟩ := step_cases s t hstep
  · exact engineStep_appends s.useTurn t hengine
  · exact hostStep_appends s.useTurn t hhost
  · exact ⟨List.prefix_rfl, List.prefix_rfl, rfl⟩

/-! ### Until a pending command completes (R31, R32, R137) -/

/-- While a command is pending, a host inside the region can do nothing to CFC. -/
theorem hostStep_busy (s : State) (hpend : s.pending ≠ none) (hregion : ∀ op ∈ s.hostQueue, op.inRegion s.cfg) :
    ∃ t, hostStep s = .next t ∧ t = s.withHostSide t ∧ t.turns = s.turns ∧ ∀ op ∈ t.hostQueue, op.inRegion s.cfg := by
  cases hqueue : s.hostQueue with
  | nil => exact ⟨s, by simp only [hostStep, hqueue], rfl, rfl, hregion⟩
  | cons op rest =>
    rw [hqueue] at hregion
    obtain ⟨hop, hrest⟩ := List.forall_mem_cons.1 hregion
    cases op with
    | read a w =>
      have hin : inRegion s.cfg a = true := by simpa [inRegion, HostOp.inRegion] using hop
      obtain ⟨hside, hturns⟩ := s.hostRead_withHostSide (a - s.cfg.base) w
      refine ⟨{ s.hostRead (a - s.cfg.base) w with hostQueue := rest }, by simp only [hostStep, hqueue, if_pos hin],
        ?_, hturns, hrest⟩
      rw [hside]
      rfl
    | write a w v =>
      have hin : inRegion s.cfg a = true := by simpa [inRegion, HostOp.inRegion] using hop
      have hjudge := s.judge_busy (a - s.cfg.base) w true hpend (by simp)
      refine ⟨{ s.raiseHostFault .hazard (a - s.cfg.base) w true with hostQueue := rest },
        by simp only [hostStep, hqueue, if_pos hin, State.hostWrite, hjudge], ?_, s.raiseHostFault_turns _ _ _ _, hrest⟩
      rw [State.raiseHostFault_eq]
      rfl
    | poll =>
      refine ⟨_, hostStep_poll s rest hqueue, rfl, rfl, ?_⟩
      rwa [if_neg hpend]

/-- Until the engine's turn comes, every step leaves CFC as it is. -/
theorem run_until_engineNext (turns : List Turn) (s : State) (hturns : s.turns = turns) (hwf : s.cfg.wf = true)
    (hpend : s.pending ≠ none) (hreset : Turn.reset ∉ turns) (hregion : ∀ op ∈ s.hostQueue, op.inRegion s.cfg) :
    ∃ k u, k ≤ turns.length ∧ core.run k s = .next (s.withHostSide u) ∧ (s.withHostSide u).engineNext := by
  induction turns generalizing s with
  | nil => exact ⟨0, s, Nat.le_refl 0, rfl, hwf, .inr ⟨hturns, hpend⟩⟩
  | cons a turns ih =>
    cases a with
    | reset => simp at hreset
    | engine => exact ⟨0, s, Nat.zero_le _, rfl, hwf, .inl (congrArg List.head? hturns)⟩
    | host =>
      have hhost : s.hostNext := ⟨hwf, .inl (congrArg List.head? hturns)⟩
      obtain ⟨t, hstep, hside, hturns', hregion'⟩ := hostStep_busy s.useTurn hpend hregion
      obtain ⟨v, rfl⟩ : ∃ v, t = s.useTurn.withHostSide v := ⟨t, hside⟩
      obtain ⟨k, u, hk, hrun, hengine⟩ := ih (s.useTurn.withHostSide v) (hturns'.trans (congrArg List.tail hturns)) hwf hpend
        (fun h => hreset (List.mem_cons_of_mem _ h)) hregion'
      exact ⟨k + 1, u, Nat.succ_le_succ hk,
        (run_succ_of_next core k s _ ((step_host s hhost).trans hstep)).trans hrun, hengine⟩

/-- Settles O13: when the engine's turn comes the word is executed, and every word completes. -/
theorem pendingCommandCompletes : Obligations.PendingCommandCompletes := by
  intro s w hwf hpend hreset hregion
  obtain ⟨k, u, hk, hrun, hengine⟩ := run_until_engineNext s.turns s rfl hwf (by simp [hpend]) hreset hregion
  have hstep := step_engine_pending (s.withHostSide u) w hengine hpend
  obtain ⟨t, ht⟩ := executeWord_next w (s.withHostSide u).useTurn
  obtain ⟨e, rfl, -⟩ := executeWord_effect w (s.withHostSide u).useTurn t ht
  exact ⟨k, s.withHostSide u, hk, hrun, hpend, rfl, rfl, rfl, rfl, rfl, rfl, rfl, rfl, rfl, rfl, rfl, hstep, _,
    hstep.trans ht, rfl⟩

end Sys2Proof.Machine
end

section
/-! SUPPORT. The proofs about a message with its CRC appended (42_crc.md, laws 1, 2 and 4) and about DES on a
complete frame (R97). -/

namespace Sys2Proof.Machine

/-! ### The CRC appended high byte first (R113) -/

/-- A register of 0 stays 0. -/
theorem crcShifts_zero (n : Nat) : Nat.repeat crcShift n 0 = 0 := by
  induction n with
  | zero => rfl
  | succ n ih => rw [Nat.repeat, ih, crcShift_zero]

/-- While only the low byte is set, at most 8 shifts move it up and XOR nothing in. -/
theorem crcShifts_lowByte (l : Byte) (n : Nat) (hn : n ≤ 8) :
    Nat.repeat crcShift n (l.zeroExtend 16) = l.zeroExtend 16 <<< n := by
  induction n with
  | zero => simp [Nat.repeat]
  | succ n ih =>
    have htop : (l.zeroExtend 16 <<< n).getLsbD 15 = false := by
      simp only [BitVec.getLsbD_shiftLeft, BitVec.truncate_eq_setWidth, BitVec.getLsbD_setWidth,
        BitVec.getLsbD_of_ge l (15 - n) (by omega)]
      simp
    rw [Nat.repeat, ih (by omega), crcShift, htop, if_neg (by decide), ← BitVec.shiftLeft_add]

/-- Feeding the register its own high byte leaves its low byte, moved up. -/
theorem crcByte_highByte (r : Half) : crcByte r (r.extractLsb' 8 8) = (r.extractLsb' 0 8).zeroExtend 16 <<< 8 := by
  have hlow : r ^^^ ((r.extractLsb' 8 8).zeroExtend 16 <<< 8) = (r.extractLsb' 0 8).zeroExtend 16 := by
    apply BitVec.eq_of_getLsbD_eq
    intro i hi
    by_cases hbyte : i < 8
    · simp [hi, hbyte]
    · have hindex : 8 + (i - 8) = i := by omega
      have hlow : i - 8 < 8 := by omega
      simp [hi, hbyte, hindex, hlow]
  rw [crcByte, hlow, crcShifts_lowByte _ 8 (Nat.le_refl 8)]

/-- Feeding the register its high byte when the low one is 0 leaves 0. -/
theorem crcByte_shifted_self (l : Byte) : crcByte (l.zeroExtend 16 <<< 8) l = 0 := by
  rw [crcByte, BitVec.xor_self]
  exact crcShifts_zero 8

/-- Settles O22: the high byte cancels the register's high byte, and then the low byte what is left. -/
theorem crcBigEndianAppendIsZero : Obligations.CrcBigEndianAppendIsZero := by
  refine ⟨rfl, fun m => ?_⟩
  rw [crc16_append, List.foldl_cons, List.foldl_cons, List.foldl_nil, crcByte_highByte, crcByte_shifted_self]

/-! ### A complete frame (R97) -/

/-- The header as the number the spec writes (R62). -/
theorem encodeHeader_eq_ofNat (c : Config) (k : BitVec 3) (hc : c.syncPattern ≤ 0x1F) :
    encodeHeader c k = BitVec.ofNat 8 (k.toNat * 32 + c.syncPattern) := by
  rw [← encodeHeader_toNat c k hc, BitVec.ofNat_toNat, BitVec.setWidth_eq]

/-- DES on written bytes whose code is 0 copies the payload and nothing else. -/
theorem State.HasFrame.des_of_desCode {s : State} {h l : Byte} {rest : List Byte} {k : Kind}
    (hframe : s.HasFrame (h :: l :: rest)) (hlen : 2 ≤ rest.length) (hcode : desCode s.cfg k h l rest = 0) :
    exec (desInstr k) s = .next ({ s with mem := s.mem.setRange (Buffer.window .rbuf) (rest.take l.toNat) }.succeeded
      (s.draws + 5)) := by
  obtain ⟨hholds, hflen, hfits⟩ := hframe
  simp only [List.length_cons] at hflen hfits
  rw [Machine.exec_des, s.des_of_holds k h l rest hholds (by omega) (by omega) hlen]
  unfold desCode at hcode
  split_ifs at hcode ⊢
  case neg => exact congrArg _ (State.complete_ok _)
  all_goals exact absurd hcode (by decide)

/-- Settles O28: the bytes are the frame of their kind, whose code is 0. -/
theorem desAcceptsValidFrame : Obligations.DesAcceptsValidFrame := by
  intro k s p hwf hp hsize hflen body hholds
  obtain ⟨hsync, hmax, -⟩ := Config.wf_bounds s.cfg hwf
  have hbody : body = frameBody s.cfg k p := by
    rw [frameBody, encodeHeader_eq_ofNat s.cfg k.code hsync]
  have hframe : s.HasFrame (frameBytes s.cfg k p) := by
    refine ⟨by rw [frameBytes, ← hbody]; exact hholds, by simpa using hflen, ?_⟩
    rw [frameBytes_length, fbufSize_eq]
    omega
  rw [frameBytes_cons] at hframe
  have hexec := hframe.des_of_desCode (k := k) (by simp) (desCode_frame hsync hp (by omega))
  rw [lengthByte_toNat (by omega), List.take_left] at hexec
  exact ⟨_, hexec⟩

/-! ### The CRC command on a frame (R113) -/

/-- The last bytes of what a buffer holds are held too. -/
theorem State.Holds.right {s : State} {b : Buffer} {i : Nat} {l r : List Byte} (h : s.Holds b i (l ++ r)) :
    s.Holds b (i + l.length) r := by
  intro j hj
  have hlast := h (l.length + j) (by simp only [List.length_append]; omega)
  rw [List.getElem_append_right (by omega)] at hlast
  simp only [Nat.add_sub_cancel_left] at hlast
  rw [← hlast]
  congr 1
  omega

/-- Settles O33: CRC reads the frame without its trailer, over which SER computed the trailer. -/
theorem crcCommandMatchesTrailer : Obligations.CrcCommandMatchesTrailer := by
  intro k s t t' hwf ht herr hcfg harg0 harg1 hsame
  obtain ⟨hcfgt, -, hframe⟩ := hasFrame_of_exec_ser k s t hwf ht herr
  generalize framePayload k (s.readBytes s.draws .rbuf 0 (kindSize s.cfg k)) = p at hframe
  obtain ⟨hholds, hflen, hfits⟩ := hframe
  have hlen : t.flen.toNat - 2 = (frameBody s.cfg k p).length := by
    rw [hflen, frameBytes_length, frameBody_length]
    omega
  have hstart : t'.arg0.toNat = 0 := congrArg BitVec.toNat harg0
  rw [hlen] at harg1 ⊢
  rw [hcfgt] at hfits
  have hread : t'.readBytes t'.draws .fbuf t'.arg0.toNat t'.arg1.toNat = frameBody s.cfg k p := by
    rw [hstart, harg1]
    exact t'.readBytes_of_holds t'.draws .fbuf 0 _ (hholds.congr hfits hsame).left
  have hrange : t'.arg0.toNat + t'.arg1.toNat ≤ fbufSize t'.cfg := by
    rw [frameBytes_length] at hfits
    rw [hstart, harg1, hcfg, hcfgt, frameBody_length]
    omega
  refine ⟨_, exec_crc_inside t' hrange, rfl, ?_⟩
  have htrailer := hholds.right
  rw [Nat.zero_add] at htrailer
  simp only [hread]
  exact htrailer

end Sys2Proof.Machine
end
